-- ==== Sys2Proof/Word.lean ====
section
/-! DEFINITION. The word types of the block (00_scope.md R5). Every value is unsigned (00_scope.md 6.1). -/

namespace Sys2Proof

/-- A register, or a word written to one: 32 bits (R5, R20). -/
abbrev Word := BitVec 32

/-- One byte of the input stream (R5, R42). -/
abbrev Byte := BitVec 8

/-- A register index, `reg_addr[3:0]` (R5, R41). -/
abbrev RegIndex := BitVec 4

/-- A 4-bit code: a command opcode, an error code, a `STATE` code (R5). -/
abbrev Code := BitVec 4

end Sys2Proof
end

