-- ==== Sys2Proof/Config.lean ====
section
/-! DEFINITION. What an implementation fixes. 00_scope.md R7: the block has no open parameter, and no rule
leaves a value free, so there is no opaque constant here; what stands here are the fixed widths of R5. -/

namespace Sys2Proof

/-- Width of `in_data` (R5). -/
def Config.streamWidth : Nat := 8

/-- Width of a register (R5). -/
def Config.registerWidth : Nat := 32

/-- Width of `reg_addr` (R5). -/
def Config.indexWidth : Nat := 4

/-- Width of a command's opcode, of an error code and of `STATE` (R5). -/
def Config.codeWidth : Nat := 4

end Sys2Proof
end

