-- ==== Sys2Proof/Syntax.lean ====
section
/-! DEFINITION. The instructions: one constructor per row of spec/opcode_table.json (00_scope.md R3, 30_encoding.md R67). -/

namespace Sys2Proof

/-- A command word written to `CMD`, or one of the two register writes that are operations in their own right
(30_encoding.md R67). A constructor holds every bit of the written word that does not select it, the ignored ones
too (`ign`), so that decoding drops no bit. DESIGN CHOICE: log 8. No meaning looks at an `ign` (R66, R158). -/
inductive Instr where
  /-- Opcode 0x0 (44_control.md R152). -/
  | nop (ign : BitVec 28)
  /-- Opcode 0x1 (43_verify.md R125). -/
  | verify (ign : BitVec 28)
  /-- Opcode 0x2 (43_verify.md R135). -/
  | verifys (ign : BitVec 28)
  /-- Opcode 0x3 (42_generate.md R115). -/
  | gen (ign : BitVec 28)
  /-- Opcode 0x4 (40_typecode.md R93). -/
  | label (ign : BitVec 28)
  /-- Opcode 0x5 (44_control.md R155). -/
  | drain (ign : BitVec 28)
  /-- Opcode 0x6 (44_control.md R154). -/
  | clear (ign : BitVec 28)
  /-- A write of `v` to `CTRL`, index 1: `v[0]`, `v[1]` and the ignored `v[31:2]` (44_control.md R158). -/
  | wrCtrl (ieDone ieErr : Bool) (ign : BitVec 30)
  /-- A write of `BE32(b0, b1, b2, b3)` to `TYPE`, index 5 (40_typecode.md R90). -/
  | wrType (b0 b1 b2 b3 : Byte)
  deriving DecidableEq, Repr

end Sys2Proof
end

