-- ==== Sys2Proof/WellFormed.lean ====
section
/-! DEFINITION. Which instructions a host should write. -/

namespace Sys2Proof

/-- Bits [31:4] of a command word "should be written 0" (30_encoding.md R66): an instruction that keeps to this is
well-formed. The block executes every instruction alike, well-formed or not (R66: it does not look at those bits).
No rule says how the ignored bits of a `CTRL` write should be written, and every byte may stand in `TYPE` (R90). -/
def Instr.wf : Instr → Bool
  | .nop ign => ign == 0
  | .verify ign => ign == 0
  | .verifys ign => ign == 0
  | .gen ign => ign == 0
  | .label ign => ign == 0
  | .drain ign => ign == 0
  | .clear ign => ign == 0
  | .wrCtrl _ _ _ => true
  | .wrType _ _ _ _ => true

end Sys2Proof
end

