-- ==== Sys2Proof/Decode.lean ====
section
/-! DEFINITION. Encoding: the register indices and opcodes, the decoder of a register write, and its encoder
(10_state.md R20, 30_encoding.md R66 to R68, R76). -/

namespace Sys2Proof

/-! ## Register indices (10_state.md R20) -/

def Reg.cmd : RegIndex := 0
def Reg.ctrl : RegIndex := 1
def Reg.status : RegIndex := 2
def Reg.err : RegIndex := 3
def Reg.len : RegIndex := 4
def Reg.type : RegIndex := 5
def Reg.props : RegIndex := 6
def Reg.crcCalc : RegIndex := 7
def Reg.crcRx : RegIndex := 8
def Reg.cnt : RegIndex := 9

/-! ## Opcodes (30_encoding.md R67) -/

def Opcode.nop : Code := 0x0
def Opcode.verify : Code := 0x1
def Opcode.verifys : Code := 0x2
def Opcode.gen : Code := 0x3
def Opcode.label : Code := 0x4
def Opcode.drain : Code := 0x5
def Opcode.clear : Code := 0x6

/-! ## Words and their fields -/

/-- `BE32(b0, b1, b2, b3)`: the first byte is the most significant (00_scope.md 6.1, R12, R45). -/
def be32 (b0 b1 b2 b3 : Byte) : Word := b0 ++ b1 ++ b2 ++ b3

/-- Byte 0 of a big-endian word, `v[31:24]`. -/
def byte0 (v : Word) : Byte := v.extractLsb' 24 8

/-- Byte 1 of a big-endian word, `v[23:16]`. -/
def byte1 (v : Word) : Byte := v.extractLsb' 16 8

/-- Byte 2 of a big-endian word, `v[15:8]`. -/
def byte2 (v : Word) : Byte := v.extractLsb' 8 8

/-- Byte 3 of a big-endian word, `v[7:0]`. -/
def byte3 (v : Word) : Byte := v.extractLsb' 0 8

/-- The opcode of a command word, `v[3:0]` (R66). -/
def opcodeOf (v : Word) : Code := v.extractLsb' 0 4

/-- The ignored bits of a command word, `v[31:4]` (R66). -/
def ignoredOf (v : Word) : BitVec 28 := v.extractLsb' 4 28

/-- A command word from its ignored bits and its opcode (R66). -/
def commandWord (ign : BitVec 28) (op : Code) : Word := ign ++ op

/-- The word of a `CTRL` write: bit 0 `IE_DONE`, bit 1 `IE_ERR`, bits [31:2] ignored (R22). -/
def ctrlWriteWord (ieDone ieErr : Bool) (ign : BitVec 30) : Word :=
  (ign ++ (BitVec.ofBool ieErr ++ BitVec.ofBool ieDone : BitVec 2) : BitVec 32)

/-! ## The decoder -/

/-- What a register write is: an instruction of the table, or rejected by name. -/
inductive Decoded where
  /-- An instruction of the opcode table. -/
  | instr (i : Instr)
  /-- A write to `CMD` with a reserved opcode, 0x7 to 0xF (R68). -/
  | reservedOpcode (op : Code)
  /-- A write to a read-only or unmapped register (R36). -/
  | ignoredRegister (i : RegIndex)
  deriving DecidableEq, Repr

/-- The command a word written to `CMD` is: `op = v & 0xF`, looked up among the seven opcodes, else reserved
(R67, R68, R76). -/
def decodeCommand (v : Word) : Decoded :=
  if opcodeOf v = Opcode.nop then .instr (.nop (ignoredOf v))
  else if opcodeOf v = Opcode.verify then .instr (.verify (ignoredOf v))
  else if opcodeOf v = Opcode.verifys then .instr (.verifys (ignoredOf v))
  else if opcodeOf v = Opcode.gen then .instr (.gen (ignoredOf v))
  else if opcodeOf v = Opcode.label then .instr (.label (ignoredOf v))
  else if opcodeOf v = Opcode.drain then .instr (.drain (ignoredOf v))
  else if opcodeOf v = Opcode.clear then .instr (.clear (ignoredOf v))
  else .reservedOpcode (opcodeOf v)

/-- What the event `RegWrite(i, v)` is, for every index and every word (R20, R36, R67). -/
def decodeWrite (i : RegIndex) (v : Word) : Decoded :=
  if i = Reg.cmd then decodeCommand v
  else if i = Reg.ctrl then .instr (.wrCtrl (v.getLsbD 0) (v.getLsbD 1) (v.extractLsb' 2 30))
  else if i = Reg.type then .instr (.wrType (byte0 v) (byte1 v) (byte2 v) (byte3 v))
  else .ignoredRegister i

/-! ## The encoder -/

/-- The register write that an instruction is: its index and its word (R66, R67, R22, R90). -/
def encode : Instr → RegIndex × Word
  | .nop ign => (Reg.cmd, commandWord ign Opcode.nop)
  | .verify ign => (Reg.cmd, commandWord ign Opcode.verify)
  | .verifys ign => (Reg.cmd, commandWord ign Opcode.verifys)
  | .gen ign => (Reg.cmd, commandWord ign Opcode.gen)
  | .label ign => (Reg.cmd, commandWord ign Opcode.label)
  | .drain ign => (Reg.cmd, commandWord ign Opcode.drain)
  | .clear ign => (Reg.cmd, commandWord ign Opcode.clear)
  | .wrCtrl ieDone ieErr ign => (Reg.ctrl, ctrlWriteWord ieDone ieErr ign)
  | .wrType b0 b1 b2 b3 => (Reg.type, be32 b0 b1 b2 b3)

/-! ## Words as spec/opcode_table.json numbers them -/

/-- The register write that a table word stands for (R76). A row of format `CMD` is the 32-bit word written to
`CMD`; a row of format `REG` is the 4-bit `reg_addr` (one byte, its upper four bits no part of the row), and the word
written is the operand, which the table gives no bits. DESIGN CHOICE: log 9. -/
def tableWrite (nbits w : Nat) : RegIndex × Word :=
  if nbits ≤ 8 then (BitVec.ofNat 4 w, 0) else (Reg.cmd, BitVec.ofNat 32 w)

/-- The instruction the decoder reads from a table word, none where it rejects it. -/
def decodeTableWord (nbits w : Nat) : Option Instr :=
  match decodeWrite (tableWrite nbits w).1 (tableWrite nbits w).2 with
  | .instr i => some i
  | .reservedOpcode _ => none
  | .ignoredRegister _ => none

end Sys2Proof
end

