-- ==== Sys2Proof/Machine/State.lean ====
section
/-! DEFINITION. The state: the block's twelve elements (10_state.md R10), and the environment's inputs and outputs as
plain data (20_memory.md R46). -/

namespace Sys2Proof.Machine

/-- The sequencer state `STATE` (10_state.md R17). Its codes are in Flags.lean; codes 11 to 15 are never taken
and have no constructor (R17, 93_implementation_defined.md U5; log 12). -/
inductive Seq where
  /-- No command since reset or CLEAR. -/
  | idle
  /-- VERIFY: in the 4-byte length field. -/
  | lenf
  /-- VERIFY: in the 4-byte type field. -/
  | typef
  /-- VERIFY: in the payload. -/
  | payld
  /-- VERIFY: in the 4-byte checksum field. -/
  | crcf
  /-- VERIFYS: consuming a slice. -/
  | slice
  /-- GEN: consuming type and payload. -/
  | genr
  /-- LABEL: consuming label bytes. -/
  | labelr
  /-- DRAIN: discarding bytes. -/
  | drainr
  /-- The last stream command succeeded. -/
  | done
  /-- The last stream command failed. -/
  | error
  deriving DecidableEq, Repr

/-- The five stream commands (00_scope.md 7, 44_control.md R150). -/
inductive StreamCmd where
  | verify | verifys | gen | label | drain
  deriving DecidableEq, Repr

/-- The error taxonomy (60_exceptions.md R171). The block raises `truncated`, `checksumMismatch`, `invalidLength`,
`invalidByte` and `lenOverflow`; the other three are reserved names of host software (R172). -/
inductive ErrName where
  | badSignature | truncated | checksumMismatch | invalidLength | invalidByte | encodingError | chunkNotFound
  | lenOverflow
  deriving DecidableEq, Repr

/-- One byte of the stream with its `in_last` (20_memory.md R42). -/
structure Beat where
  data : Byte
  last : Bool
  deriving DecidableEq, Repr

/-- What the environment does to the block, one event at a time (20_memory.md R46). -/
inductive Event where
  /-- `Reset`: a cycle with `rst` = 1 (R200). -/
  | reset
  /-- `RegRead(i)` (R41). -/
  | regRead (i : RegIndex)
  /-- `RegWrite(i, v)` (R41). -/
  | regWrite (i : RegIndex) (v : Word)
  /-- The source offers its next byte, if it has one left: `in_valid` = 1 (R42). It is the event `Beat(d, l)` when
  `in_ready` = 1; when `in_ready` = 0 the byte waits. DEDUCED: log 5. -/
  | offer
  deriving DecidableEq, Repr

/-- The block's state: exactly the twelve elements of 10_state.md R10, with the widths of R10's table, which sum to 176
bits, where R10's prose says 178. DEDUCED from R5 and R11 to R29: log 19. -/
structure Block where
  /-- `STATE` (R17). -/
  state  : Seq
  /-- `OP`, the opcode of the last accepted stream command (R19). -/
  op     : Code
  /-- `LEN` (R11). -/
  len    : Word
  /-- `TYPE` (R12). -/
  type   : Word
  /-- `CRC`, the accumulator before the final complement (R13). -/
  crc    : Word
  /-- `CRC_RX`, the received checksum; in VERIFYS the delay line (R14). -/
  crcRx  : Word
  /-- `CNT`, the byte counter (R15). -/
  cnt    : Word
  /-- `ERR`, the error code (R29). -/
  err    : Code
  /-- `EOB` (R27). -/
  eob    : Bool
  /-- `CMDERR`, sticky (R28). -/
  cmderr : Bool
  /-- `IE_DONE`, `CTRL[0]` (R22). -/
  ieDone : Bool
  /-- `IE_ERR`, `CTRL[1]` (R22). -/
  ieErr  : Bool
  deriving DecidableEq, Repr

/-- The machine: the block, and its environment as plain data. `inputs`, `source` and `returned` are the model's own:
R10 says that what is still to come is "inputs of the step relation and not state of the block". DESIGN CHOICE: log 1
(`inputs`, `source`) and log 4 (`returned`). -/
structure State where
  block    : Block
  /-- The events still to happen, oldest first. -/
  inputs   : List Event
  /-- The bytes the source has not yet delivered; the head is the one it offers. -/
  source   : List Beat
  /-- What `RegRead` events have returned, newest first. -/
  returned : List Word
  deriving DecidableEq, Repr

/-- The reasons the machine can stop with a fault: NONE. "The behaviour is always defined" (70_reset_and_hazards.md
R205): an error of the block is a state it enters and goes on from (60_exceptions.md R170, R175), a misuse sets
`CMDERR` (R179). DEDUCED: log 11 (safe: no meaning of the model stops). -/
inductive Fault where
  deriving DecidableEq, Repr

/-- The reasons the model can refuse. -/
inductive Refusal where
  /-- Raised by an arm of `exec` whose instruction has no meaning yet: none has (safe: a refusal proves nothing). -/
  | notModelled (mnemonic : String)
  deriving DecidableEq, Repr

/-- The twelve elements after `Reset` (10_state.md R37, 70_reset_and_hazards.md R200). -/
def Block.afterReset : Block where
  state := .idle
  op := 0
  len := 0
  type := 0
  crc := 0xFFFFFFFF
  crcRx := 0
  cnt := 0
  err := 0
  eob := false
  cmderr := false
  ieDone := false
  ieErr := false

/-- The machine right after reset (R37), with an environment that has nothing more for it. DESIGN CHOICE: log 3 (the
three lists), log 2 (how a host's program comes to run). -/
def State.reset : State where
  block := Block.afterReset
  inputs := []
  source := []
  returned := []

end Sys2Proof.Machine
end

