-- ==== Sys2Proof/Machine/Operands.lean ====
section
/-! DEFINITION. The operand forms: how a byte enters a field, how counters move, and the CRC engine
(20_memory.md R45, 30_encoding.md R69, 41_crc32.md). -/

namespace Sys2Proof.Machine

/-! ## Fields and counters -/

/-- A byte shifted into a big-endian field: `F <- ((F << 8) | d) mod 2^32` (R45, R69). -/
def shiftIn (f : Word) (d : Byte) : Word := (f <<< 8) ||| d.setWidth 32

/-- The saturating increment `min(c + 1, k)` (41_crc32.md R108), computed on unbounded numbers. -/
def satInc (c : Word) (k : Nat) : Word := BitVec.ofNat 32 (min (c.toNat + 1) k)

/-- The largest payload length, 0xFFFFFFFF (42_generate.md R118). -/
def lenMax : Word := 0xFFFFFFFF

/-! ## The CRC engine (41_crc32.md R100 to R103) -/

/-- The generator polynomial in its bit-reversed form (R100). PRESUMED by the spec itself: log 16. -/
def crcPoly : Word := 0xEDB88320

/-- The accumulator's initial value (R100, R150). -/
def crcInit : Word := 0xFFFFFFFF

/-- One of the eight shift-and-XOR steps of `crc_update` (R101). -/
def crcBit (c : Word) : Word := if c.getLsbD 0 then (c >>> 1) ^^^ crcPoly else c >>> 1

/-- `n` of those steps. -/
def crcBits : Nat → Word → Word
  | 0, c => c
  | n + 1, c => crcBits n (crcBit c)

/-- `crc_update(c, d)`: the byte enters at the low end, then eight steps (R101). -/
def crcUpdate (c : Word) (d : Byte) : Word := crcBits 8 (c ^^^ d.setWidth 32)

/-- The accumulator after feeding a byte string. -/
def crcFeed (c : Word) (bytes : List Byte) : Word := bytes.foldl crcUpdate c

/-- `crc32(s)` (R103). -/
def crc32 (bytes : List Byte) : Word := crcFeed crcInit bytes ^^^ 0xFFFFFFFF

/-- The table of R102: `T[i] = crc_update(0, i)`. -/
def crcTable (i : Byte) : Word := crcUpdate 0 i

/-! ## The property decode (40_typecode.md R80 to R87) -/

/-- `alpha(b)`: the byte is an ASCII letter (R80). PRESUMED by the spec itself: log 16. -/
def alpha (b : Byte) : Bool :=
  (0x41 ≤ b.toNat && b.toNat ≤ 0x5A) || (0x61 ≤ b.toNat && b.toNat ≤ 0x7A)

/-- CRITICAL: `(b0 & 0x20) == 0` (R81). -/
def isCritical (t : Word) : Bool := byte0 t &&& 0x20 == 0

/-- PUBLIC: `(b1 & 0x20) == 0` (R82). -/
def isPublic (t : Word) : Bool := byte1 t &&& 0x20 == 0

/-- RSV_VALID: `(b2 & 0x20) == 0` (R83). -/
def isReservedBitValid (t : Word) : Bool := byte2 t &&& 0x20 == 0

/-- SAFE_COPY: `(b3 & 0x20) != 0` (R84). -/
def isSafeToCopy (t : Word) : Bool := byte3 t &&& 0x20 != 0

/-- ALPHA: all four bytes are letters (R85). -/
def isAlpha (t : Word) : Bool := alpha (byte0 t) && alpha (byte1 t) && alpha (byte2 t) && alpha (byte3 t)

/-- VALID = ALPHA and RSV_VALID (R86). -/
def isValid (t : Word) : Bool := isAlpha t && isReservedBitValid t

/-- `props(t)`: CRITICAL in bit 0, then PUBLIC, RSV_VALID, SAFE_COPY, VALID, ALPHA in bit 5 (R87). -/
def props (t : Word) : BitVec 6 :=
  BitVec.ofBool (isAlpha t) ++ BitVec.ofBool (isValid t) ++ BitVec.ofBool (isSafeToCopy t)
    ++ BitVec.ofBool (isReservedBitValid t) ++ BitVec.ofBool (isPublic t) ++ BitVec.ofBool (isCritical t)

end Sys2Proof.Machine
end

