-- ==== Sys2Proof/Machine/Flags.lean ====
section
/-! DEFINITION. The flags, the words they are read in, and the outputs computed from the state
(10_state.md R17, R22 to R28, 20_memory.md R43, 60_exceptions.md R180). -/

namespace Sys2Proof.Machine

/-- The 4-bit code of a `STATE` value (R17). -/
def Seq.code : Seq → Code
  | .idle => 0
  | .lenf => 1
  | .typef => 2
  | .payld => 3
  | .crcf => 4
  | .slice => 5
  | .genr => 6
  | .labelr => 7
  | .drainr => 8
  | .done => 9
  | .error => 10

/-- `BUSY`: the codes 1 to 8 (R24). -/
def Seq.busy : Seq → Bool
  | .idle => false
  | .lenf => true
  | .typef => true
  | .payld => true
  | .crcf => true
  | .slice => true
  | .genr => true
  | .labelr => true
  | .drainr => true
  | .done => false
  | .error => false

/-- The flag `BUSY` (R24). -/
def Block.busy (b : Block) : Bool := b.state.busy

/-- The flag `DONE` (R25). -/
def Block.isDone (b : Block) : Bool := b.state == .done

/-- The flag `ERROR` (R26). -/
def Block.isError (b : Block) : Bool := b.state == .error

/-- The output `in_ready` = `BUSY` (R43). -/
def Block.inReady (b : Block) : Bool := b.busy

/-- The output `irq` (R180). -/
def Block.irq (b : Block) : Bool := (b.ieDone && b.isDone) || (b.ieErr && b.isError)

/-- A flag as a word with value 0 or 1. -/
def flagWord (f : Bool) : Word := (BitVec.ofBool f).setWidth 32

/-- The word `STATUS` reads as (R23). -/
def Block.statusWord (b : Block) : Word :=
  flagWord b.busy ||| flagWord b.isDone <<< 1 ||| flagWord b.isError <<< 2 ||| flagWord b.eob <<< 3
    ||| flagWord b.cmderr <<< 4 ||| b.state.code.setWidth 32 <<< 8 ||| b.op.setWidth 32 <<< 12

/-- The word `CTRL` reads as (R22). -/
def Block.ctrlWord (b : Block) : Word := flagWord b.ieDone ||| flagWord b.ieErr <<< 1

end Sys2Proof.Machine
end

