-- ==== Sys2Proof/Machine/Ops.lean ====
section
/-! DEFINITION. The operations the instructions and the beats share: reading a register, refusing a write, raising an
error and leaving it, starting a stream command, clearing, resetting. -/

namespace Sys2Proof.Machine

/-! ## Codes -/

/-- The code of an error (60_exceptions.md R171). -/
def ErrName.code : ErrName → Code
  | .badSignature => 1
  | .truncated => 2
  | .checksumMismatch => 3
  | .invalidLength => 4
  | .invalidByte => 5
  | .encodingError => 6
  | .chunkNotFound => 7
  | .lenOverflow => 8

/-- The opcode a stream command leaves in `OP` (10_state.md R19, 30_encoding.md R67). -/
def StreamCmd.opcode : StreamCmd → Code
  | .verify => Opcode.verify
  | .verifys => Opcode.verifys
  | .gen => Opcode.gen
  | .label => Opcode.label
  | .drain => Opcode.drain

/-- The state in which a stream command starts (44_control.md R150). -/
def StreamCmd.entry : StreamCmd → Seq
  | .verify => .lenf
  | .verifys => .slice
  | .gen => .genr
  | .label => .labelr
  | .drain => .drainr

/-! ## Reading a register -/

/-- The value of `RegRead(i)` (10_state.md R20 to R23, R29 to R36). -/
def Block.read (b : Block) (i : RegIndex) : Word :=
  if i = Reg.cmd then 0
  else if i = Reg.ctrl then b.ctrlWord
  else if i = Reg.status then b.statusWord
  else if i = Reg.err then b.err.setWidth 32
  else if i = Reg.len then b.len
  else if i = Reg.type then b.type
  else if i = Reg.props then (props b.type).setWidth 32
  else if i = Reg.crcCalc then ~~~ b.crc
  else if i = Reg.crcRx then b.crcRx
  else if i = Reg.cnt then b.cnt
  else 0

/-! ## Refusal, error, start, clear, reset -/

/-- A refused write: `CMDERR <- 1` and nothing else (10_state.md R28, 60_exceptions.md R179). -/
def Block.refuse (b : Block) : Block := { b with cmderr := true }

/-- `raise E`: `ERR <- code(E); STATE <- ERROR` (60_exceptions.md R175). This is the block's one way of taking an
error; "there is no return instruction" (R178): ERROR is left by `startStream`, `clear` or `resetAll`. -/
def Block.raise (e : ErrName) (b : Block) : Block := { b with err := e.code, state := .error }

/-- What start-up, CLEAR and reset have in common: no result of an earlier command survives (44_control.md R150,
R154, 70_reset_and_hazards.md R200). -/
def Block.forget (b : Block) : Block :=
  { b with len := 0, type := 0, crcRx := 0, cnt := 0, crc := crcInit, err := 0, eob := false }

/-- A stream command written to `CMD`: accepted when not BUSY (44_control.md R150), else refused (R151). -/
def Block.startStream (c : StreamCmd) (b : Block) : Block :=
  if b.busy then b.refuse else { b.forget with op := c.opcode, state := c.entry }

/-- CLEAR: the reset values, but `IE_DONE` and `IE_ERR` keep theirs (44_control.md R154). In IDLE too `TYPE` becomes 0, as
R154's pseudocode says, where its corner case (c) says that nothing but `CMDERR` changes. DEDUCED: log 20. -/
def Block.clear (b : Block) : Block := { b.forget with state := .idle, op := 0, cmderr := false }

/-- `Reset`: the effect of CLEAR plus clearing `CTRL` (70_reset_and_hazards.md R200). -/
def Block.resetAll (b : Block) : Block := { b.clear with ieDone := false, ieErr := false }

/-- A write to `CTRL` (44_control.md R158). -/
def Block.writeCtrl (ieDone ieErr : Bool) (b : Block) : Block := { b with ieDone := ieDone, ieErr := ieErr }

/-- A write to `TYPE`: stored when not BUSY, else refused (40_typecode.md R90). -/
def Block.writeType (v : Word) (b : Block) : Block := if b.busy then b.refuse else { b with type := v }

/-! ## The block inside the machine -/

/-- An operation of the block, the environment untouched. -/
def State.onBlock (f : Block → Block) (s : State) : State := { s with block := f s.block }

/-- A register read: its value is returned and the block is unchanged (20_memory.md R41, R50; log 4). -/
def State.readReg (i : RegIndex) (s : State) : State := { s with returned := s.block.read i :: s.returned }

/-- The next event of the environment, taken off the list; none when it has nothing (log 1). -/
def State.takeInput (s : State) : Option (Event × State) :=
  match s.inputs with
  | [] => none
  | e :: rest => some (e, { s with inputs := rest })

/-- The machine with one register write as the environment's very next event (log 2). -/
def State.withWrite (i : RegIndex) (v : Word) (s : State) : State :=
  { s with inputs := .regWrite i v :: s.inputs }

end Sys2Proof.Machine
end

