-- ==== Sys2Proof/Machine/Control.lean ====
section
/-! DEFINITION. Control: NOP, CLEAR, DRAIN and its beats, WR_CTRL (44_control.md). -/

namespace Sys2Proof.Machine

/-- NOP: accepted in every state, changes nothing (R152). -/
def execNop (s : State) : Host.Outcome State Fault Refusal := .next s

/-- CLEAR: accepted in every state, BUSY included (R154). -/
def execClear (s : State) : Host.Outcome State Fault Refusal := .next (s.onBlock Block.clear)

/-- DRAIN: starts, or is refused while BUSY (R155). -/
def execDrain (s : State) : Host.Outcome State Fault Refusal := .next (s.onBlock (Block.startStream .drain))

/-- WR_CTRL: accepted in every state; the ignored bits are not looked at (R158). -/
def execWrCtrl (ieDone ieErr : Bool) (s : State) : Host.Outcome State Fault Refusal :=
  .next (s.onBlock (Block.writeCtrl ieDone ieErr))

/-- `Beat(d, l)` in DRAINR: the byte is dropped (R156). -/
def Block.beatDrainr (_d : Byte) (l : Bool) (b : Block) : Block :=
  let b := { b with eob := l }
  if l then { b with state := .done } else b

end Sys2Proof.Machine
end

