-- ==== Sys2Proof/Machine/Generate.lean ====
section
/-! DEFINITION. GEN and its beats (42_generate.md). -/

namespace Sys2Proof.Machine

/-- GEN: starts, or is refused while BUSY (R115). -/
def execGen (s : State) : Host.Outcome State Fault Refusal := .next (s.onBlock (Block.startStream .gen))

/-- `Beat(d, l)` in GENR (R116). -/
def Block.beatGenr (d : Byte) (l : Bool) (b : Block) : Block :=
  let b := { b with eob := l }
  if 4 ≤ b.cnt.toNat ∧ b.len = lenMax then b.raise .lenOverflow
  else
    let b :=
      if b.cnt.toNat < 4 then { b with type := shiftIn b.type d, cnt := b.cnt + 1 } else { b with len := b.len + 1 }
    let b := { b with crc := crcUpdate b.crc d }
    if l then
      if b.cnt.toNat < 4 then b.raise .truncated else { b with state := .done }
    else b

end Sys2Proof.Machine
end

