-- ==== Sys2Proof/Machine/TypeCode.lean ====
section
/-! DEFINITION. WR_TYPE, and LABEL and its beats (40_typecode.md). -/

namespace Sys2Proof.Machine

/-- WR_TYPE: `TYPE <- BE32(b0, b1, b2, b3)`, or refused while BUSY (R90). -/
def execWrType (b0 b1 b2 b3 : Byte) (s : State) : Host.Outcome State Fault Refusal :=
  .next (s.onBlock (Block.writeType (be32 b0 b1 b2 b3)))

/-- LABEL: starts, or is refused while BUSY (R93). -/
def execLabel (s : State) : Host.Outcome State Fault Refusal := .next (s.onBlock (Block.startStream .label))

/-- `Beat(d, l)` in LABELR: the length check comes before the byte check (R94). -/
def Block.beatLabelr (d : Byte) (l : Bool) (b : Block) : Block :=
  let b := { b with eob := l }
  let b := if b.cnt.toNat < 4 then { b with type := shiftIn b.type d } else b
  let b := { b with cnt := satInc b.cnt 5 }
  if l then
    if b.cnt ≠ 4 then b.raise .invalidLength
    else if ! isAlpha b.type then b.raise .invalidByte
    else { b with state := .done }
  else b

end Sys2Proof.Machine
end

