-- ==== Sys2Proof/Machine/Verify.lean ====
section
/-! DEFINITION. VERIFY and VERIFYS and their beats (43_verify.md). -/

namespace Sys2Proof.Machine

/-- VERIFY: starts, or is refused while BUSY (R125). -/
def execVerify (s : State) : Host.Outcome State Fault Refusal := .next (s.onBlock (Block.startStream .verify))

/-- VERIFYS: starts, or is refused while BUSY (R135). -/
def execVerifys (s : State) : Host.Outcome State Fault Refusal := .next (s.onBlock (Block.startStream .verifys))

/-- `Beat(d, l)` in LENF (R126). -/
def Block.beatLenf (d : Byte) (l : Bool) (b : Block) : Block :=
  let b := { b with eob := l, len := shiftIn b.len d, cnt := b.cnt + 1 }
  if l then b.raise .truncated
  else if b.cnt = 4 then { b with cnt := 0, state := .typef }
  else b

/-- `Beat(d, l)` in TYPEF (R127). -/
def Block.beatTypef (d : Byte) (l : Bool) (b : Block) : Block :=
  let b := { b with eob := l, type := shiftIn b.type d, crc := crcUpdate b.crc d, cnt := b.cnt + 1 }
  if l then b.raise .truncated
  else if b.cnt = 4 then
    if b.len = 0 then { b with cnt := 0, state := .crcf } else { b with cnt := 0, state := .payld }
  else b

/-- `Beat(d, l)` in PAYLD (R128). -/
def Block.beatPayld (d : Byte) (l : Bool) (b : Block) : Block :=
  let b := { b with eob := l, crc := crcUpdate b.crc d, cnt := b.cnt + 1 }
  if l then b.raise .truncated
  else if b.cnt = b.len then { b with cnt := 0, state := .crcf }
  else b

/-- The comparison that ends VERIFY and VERIFYS: all 32 bits, `CRC_RX == ~CRC` (R130). -/
def Block.compareChecksum (b : Block) : Block :=
  if b.crcRx = ~~~ b.crc then { b with state := .done } else b.raise .checksumMismatch

/-- `Beat(d, l)` in CRCF (R129). -/
def Block.beatCrcf (d : Byte) (l : Bool) (b : Block) : Block :=
  let b := { b with eob := l, crcRx := shiftIn b.crcRx d, cnt := b.cnt + 1 }
  if b.cnt.toNat < 4 then
    if l then b.raise .truncated else b
  else b.compareChecksum

/-- The delay line of VERIFYS releases its oldest byte, once it is full: the first four released bytes are the
type, the later ones payload (R136). -/
def Block.releaseOldest (b : Block) : Block :=
  if 4 ≤ b.cnt.toNat then
    let out := byte0 b.crcRx
    let b := { b with crc := crcUpdate b.crc out }
    if b.cnt.toNat < 8 then { b with type := shiftIn b.type out } else { b with len := b.len + 1 }
  else b

/-- `Beat(d, l)` in SLICE (R136). -/
def Block.beatSlice (d : Byte) (l : Bool) (b : Block) : Block :=
  let b := { b with eob := l }
  if 8 ≤ b.cnt.toNat ∧ b.len = lenMax then b.raise .lenOverflow
  else
    let b := b.releaseOldest
    let b := { b with crcRx := shiftIn b.crcRx d, cnt := satInc b.cnt 8 }
    if l then
      if b.cnt.toNat < 8 then b.raise .truncated else b.compareChecksum
    else b

end Sys2Proof.Machine
end

