-- ==== Sys2Proof/Machine/Beat.lean ====
section
/-! DEFINITION. The event `Beat(d, l)` and the offering of a byte (20_memory.md R42, R43, R57). -/

namespace Sys2Proof.Machine

/-- `Beat(d, l)`: what it does depends only on `STATE` (R57). In IDLE, DONE and ERROR it cannot happen (44_control.md
R160), and `takeOffer` never asks for it there; the block as it is stands for that case. -/
def Block.beat (d : Byte) (l : Bool) (b : Block) : Block :=
  match b.state with
  | .idle => b
  | .lenf => b.beatLenf d l
  | .typef => b.beatTypef d l
  | .payld => b.beatPayld d l
  | .crcf => b.beatCrcf d l
  | .slice => b.beatSlice d l
  | .genr => b.beatGenr d l
  | .labelr => b.beatLabelr d l
  | .drainr => b.beatDrainr d l
  | .done => b
  | .error => b

/-- A string of beats, one after another. A beat does nothing where it cannot happen, so the beats after the one that
ends the command leave the block as it is. -/
def Block.beats (xs : List Beat) (b : Block) : Block := xs.foldl (fun b x => b.beat x.data x.last) b

/-- The source offers its next byte. With `in_ready` = 1 it is consumed, exactly once; with `in_ready` = 0, or with no
byte left, nothing happens and the byte waits at the port (R42, R43). DEDUCED: log 5. -/
def State.takeOffer (s : State) : State :=
  match s.source with
  | [] => s
  | byte :: rest =>
    if s.block.inReady then { s with block := s.block.beat byte.data byte.last, source := rest } else s

/-- `n` offers, one after another. -/
def State.feed : Nat → State → State
  | 0, s => s
  | n + 1, s => State.feed n s.takeOffer

end Sys2Proof.Machine
end

