-- ==== Sys2Proof/Machine/Dispatch.lean ====
section
/-! DEFINITION. What each instruction does: one arm per constructor of Instr. A stream command's arm is its start
(20_memory.md R53: the write "is its execution (for NOP, CLEAR) or its start (for stream commands)"); the beats that
follow are events of their own. -/

namespace Sys2Proof.Machine

def exec (i : Instr) (s : State) : Host.Outcome State Fault Refusal :=
  match i with
  -- commands (30_encoding.md R67)
  | .nop _ => Sys2Proof.Machine.execNop s
  | .verify _ => Sys2Proof.Machine.execVerify s
  | .verifys _ => Sys2Proof.Machine.execVerifys s
  | .gen _ => Sys2Proof.Machine.execGen s
  | .label _ => Sys2Proof.Machine.execLabel s
  | .drain _ => Sys2Proof.Machine.execDrain s
  | .clear _ => Sys2Proof.Machine.execClear s
  -- register writes
  | .wrCtrl ieDone ieErr _ => Sys2Proof.Machine.execWrCtrl ieDone ieErr s
  | .wrType b0 b1 b2 b3 => Sys2Proof.Machine.execWrType b0 b1 b2 b3 s

end Sys2Proof.Machine
end

