-- ==== Sys2Proof/Machine/Events.lean ====
section
/-! DEFINITION. What each event does (20_memory.md R46), and runs of events. -/

namespace Sys2Proof.Machine

/-- `RegWrite(i, v)`: an instruction runs; a reserved opcode is refused and the refusal recorded (30_encoding.md R68); a
write to a read-only or unmapped register is ignored (10_state.md R36). -/
def runWrite (i : RegIndex) (v : Word) (s : State) : Host.Outcome State Fault Refusal :=
  match decodeWrite i v with
  | .instr ins => exec ins s
  | .reservedOpcode _ => .next (s.onBlock Block.refuse)
  | .ignoredRegister _ => .next s

/-- One event (R46). -/
def runEvent (e : Event) (s : State) : Host.Outcome State Fault Refusal :=
  match e with
  | .reset => .next (s.onBlock Block.resetAll)
  | .regRead i => .next (s.readReg i)
  | .regWrite i v => runWrite i v s
  | .offer => .next s.takeOffer

/-- Events one after another, each seeing the whole effect of those before it (R49). -/
def runEvents : List Event → State → Host.Outcome State Fault Refusal
  | [], s => .next s
  | e :: rest, s =>
    match runEvent e s with
    | .next t => runEvents rest t
    | .fault r => .fault r
    | .refused r => .refused r

end Sys2Proof.Machine
end

