-- ==== Sys2Proof/Machine/Step.lean ====
section
/-! DEFINITION. One step: the environment's next event happens (20_memory.md R46; log 1). -/

namespace Sys2Proof.Machine

/-- One step of the machine. With no event there is no change: the block does nothing on its own (44_control.md
R159) and has no time-out (70_reset_and_hazards.md R206). DESIGN CHOICE: log 6. -/
def step (s : State) : Host.Outcome State Fault Refusal :=
  match s.takeInput with
  | none => .next s
  | some (e, t) => runEvent e t

/-- The state in which the very next step is the register write that a table word stands for (30_encoding.md R76).
DESIGN CHOICE: logs 2 and 9. -/
def State.withFetchWord (s : State) (nbits w : Nat) : State :=
  s.withWrite (tableWrite nbits w).1 (tableWrite nbits w).2

end Sys2Proof.Machine
end

