-- ==== Sys2Proof/Machine/Cycle.lean ====
section
/-! DEFINITION. The clock cycle: which events happen in it, and in which order (20_memory.md R41 to R44, R48,
70_reset_and_hazards.md R200). DEDUCED: log 14. -/

namespace Sys2Proof.Machine

/-- The input pins in one cycle (R41, R42, R44). `in_data` and `in_last` are the head of `State.source`. -/
structure Pins where
  rst      : Bool
  regAddr  : RegIndex
  regWe    : Bool
  regWdata : Word
  regRe    : Bool
  inValid  : Bool
  deriving DecidableEq, Repr

/-- The register access of a cycle: the read is performed first (R41, R48). -/
def Pins.access (p : Pins) : List Event :=
  (if p.regRe then [.regRead p.regAddr] else []) ++ (if p.regWe then [.regWrite p.regAddr p.regWdata] else [])

/-- The events of a cycle: `Reset` overrides all; else read, write, beat (R48, R200). -/
def Pins.events (p : Pins) : List Event :=
  if p.rst then [.reset] else p.access ++ (if p.inValid then [.offer] else [])

/-- One clock cycle. -/
def clockCycle (p : Pins) (s : State) : Host.Outcome State Fault Refusal := runEvents p.events s

/-- The output `in_ready` in a cycle: evaluated on the state after the cycle's register access (R43), and treated as 0
in a cycle with `rst` = 1 (R200). -/
def cycleInReady (p : Pins) (s : State) : Bool :=
  if p.rst then false
  else match runEvents p.access s with
    | .next t => t.block.inReady
    | .fault _ => false
    | .refused _ => false

/-- The output `reg_rdata` in a cycle with `reg_re` = 1, from the state before the cycle's events (R41); none in a cycle
without a read (log 4) or with `rst` = 1. -/
def cycleRdata (p : Pins) (s : State) : Option Word :=
  if p.regRe && !p.rst then some (s.block.read p.regAddr) else none

end Sys2Proof.Machine
end

