-- ==== Sys2Proof/Machine/Wire.lean ====
section
/-! DEFINITION. The wire formats (30_encoding.md R60 to R65): byte strings as the source sends them, and the frame the
host builds from a record's registers (R62). -/

namespace Sys2Proof.Machine

/-- A word's four bytes, most significant first (R62). -/
def bytesOf (v : Word) : List Byte := [byte0 v, byte1 v, byte2 v, byte3 v]

/-- `BE32` of the first four bytes of a string; a shorter one is filled with zero bytes. -/
def be32Of (bytes : List Byte) : Word :=
  be32 (bytes.getD 0 0) (bytes.getD 1 0) (bytes.getD 2 0) (bytes.getD 3 0)

/-- The checksum of a record: CRC-32 over type then payload (41_crc32.md R103). -/
def recordCrc (type : Word) (payload : List Byte) : Word := crc32 (bytesOf type ++ payload)

/-- The GEN input: type, payload (R64). -/
def genInput (type : Word) (payload : List Byte) : List Byte := bytesOf type ++ payload

/-- A slice: type, payload, checksum field (R63). -/
def sliceOf (type : Word) (payload : List Byte) (crc : Word) : List Byte := bytesOf type ++ payload ++ bytesOf crc

/-- A frame: length, type, payload, checksum field (R61). -/
def frameOf (len type : Word) (payload : List Byte) (crc : Word) : List Byte :=
  bytesOf len ++ sliceOf type payload crc

/-- The frame a host builds from `LEN`, `TYPE`, `CRC_CALC` as the registers read, and its own copy of the payload
(R62, 42_generate.md R119). -/
def serialize (b : Block) (payload : List Byte) : List Byte :=
  frameOf (b.read Reg.len) (b.read Reg.type) payload (b.read Reg.crcCalc)

/-- Bytes with no end marker (30_encoding.md R74, `SEND` without `LAST`). -/
def unmarked (bytes : List Byte) : List Beat := bytes.map fun d => ⟨d, false⟩

/-- Bytes with `in_last` on the final one (R74, `SEND ... LAST`). -/
def markLast : List Byte → List Beat
  | [] => []
  | [d] => [⟨d, true⟩]
  | d :: e :: rest => ⟨d, false⟩ :: markLast (e :: rest)

end Sys2Proof.Machine
end

