-- ==== Sys2Proof/Machine/Script.lean ====
section
/-! DEFINITION. The host's side as functions over the machine: the host-script statements and pseudo-operations
(30_encoding.md R74, R75) and the loop over a buffer of frames (43_verify.md R133). -/

namespace Sys2Proof.Machine

/-- The mapped registers by name (10_state.md R20). -/
inductive RegName where
  | cmd | ctrl | status | err | len | type | props | crcCalc | crcRx | cnt
  deriving DecidableEq, Repr

/-- The index of a register (R20). -/
def RegName.index : RegName → RegIndex
  | .cmd => Reg.cmd
  | .ctrl => Reg.ctrl
  | .status => Reg.status
  | .err => Reg.err
  | .len => Reg.len
  | .type => Reg.type
  | .props => Reg.props
  | .crcCalc => Reg.crcCalc
  | .crcRx => Reg.crcRx
  | .cnt => Reg.cnt

/-- A host-script statement (R74). -/
inductive Stmt where
  | reset
  | cmd (op : Code)
  | wr (r : RegName) (v : Word)
  | rd (r : RegName)
  | send (bytes : List Byte) (last : Bool)
  deriving DecidableEq, Repr

/-- The register-port events of a statement (R74). -/
def Stmt.events : Stmt → List Event
  | .reset => [.reset]
  | .cmd op => [.regWrite Reg.cmd (op.setWidth 32)]
  | .wr r v => [.regWrite r.index v]
  | .rd r => [.regRead r.index]
  | .send _ _ => []

/-- The bytes a statement adds to the stream (R74). -/
def Stmt.bytes : Stmt → List Beat
  | .reset => []
  | .cmd _ => []
  | .wr _ _ => []
  | .rd _ => []
  | .send bytes last => if last then markLast bytes else unmarked bytes

/-- A statement: its bytes join those waiting, its events happen, and then every waiting byte is offered. DEDUCED from
95_test_vectors.md P1 ("the waiting 12 bytes are consumed"): log 15. -/
def Stmt.run (st : Stmt) (s : State) : Host.Outcome State Fault Refusal :=
  let source := s.source ++ st.bytes
  runEvents (st.events ++ List.replicate source.length .offer) { s with source := source }

/-- A script: its statements in order (R74). -/
def runScript : List Stmt → State → Host.Outcome State Fault Refusal
  | [], s => .next s
  | st :: rest, s =>
    match st.run s with
    | .next t => runScript rest t
    | .fault r => .fault r
    | .refused r => .refused r

/-! ## Pseudo-operations (R75) -/

/-- `PARSE_BYTES b0 b1 b2 b3`. -/
def Stmt.parseBytes (b0 b1 b2 b3 : Byte) : Stmt := .wr .type (be32 b0 b1 b2 b3)

/-- `IS_CRITICAL`: bit 0 of `PROPS`. -/
def hostIsCritical (b : Block) : Bool := (b.read Reg.props).getLsbD 0

/-- `IS_PUBLIC`: bit 1 of `PROPS`. -/
def hostIsPublic (b : Block) : Bool := (b.read Reg.props).getLsbD 1

/-- `IS_RESERVED_BIT_VALID`: bit 2 of `PROPS`. -/
def hostIsReservedBitValid (b : Block) : Bool := (b.read Reg.props).getLsbD 2

/-- `IS_SAFE_TO_COPY`: bit 3 of `PROPS`. -/
def hostIsSafeToCopy (b : Block) : Bool := (b.read Reg.props).getLsbD 3

/-- `IS_VALID`: bit 4 of `PROPS`. -/
def hostIsValid (b : Block) : Bool := (b.read Reg.props).getLsbD 4

/-- What a host copies out of the block in DONE: `LENGTH`, `CHUNK_TYPE`, `CRC` (R75). -/
structure Record where
  len  : Word
  type : Word
  crc  : Word
  deriving DecidableEq, Repr

/-- The record in the registers. -/
def Block.record (b : Block) : Record := ⟨b.read Reg.len, b.read Reg.type, b.read Reg.crcCalc⟩

/-- How `VERIFY_ALL` can end. -/
inductive VerifyAll where
  /-- The buffer is exhausted: the records in order. -/
  | records (rs : List Record)
  /-- A VERIFY ended in ERROR: the records are discarded and the code in `ERR` is reported. -/
  | failed (code : Word)
  /-- A VERIFY is still BUSY and the source has no more bytes (70_reset_and_hazards.md R206). -/
  | waiting
  /-- As many VERIFY commands as allowed have run and the buffer goes on (log 18). -/
  | more
  /-- The machine stopped, which no event of this machine does. -/
  | stopped
  deriving DecidableEq, Repr

/-- `VERIFY_ALL`: VERIFY again and again until `STATUS.EOB` = 1, at most `n` times, `acc` holding the records so far,
newest first (R75, R133). DESIGN CHOICE (the bound): log 18. -/
def verifyAll : Nat → List Record → State → VerifyAll
  | 0, _, _ => .more
  | n + 1, acc, s =>
    match (Stmt.cmd Opcode.verify).run s with
    | .fault _ => .stopped
    | .refused _ => .stopped
    | .next t =>
      let status := t.block.read Reg.status
      if status.getLsbD 0 then .waiting
      else if status.getLsbD 2 then .failed (t.block.read Reg.err)
      else if status.getLsbD 3 then .records (t.block.record :: acc).reverse
      else verifyAll n (t.block.record :: acc) t

end Sys2Proof.Machine
end

