-- ==== Sys2Proof/Safety.lean ====
section
/-! DEFINITION. The terms claims use: runs, when a result exists, the state invariant, the transition table of
44_control.md R160, and the bytes fed to the CRC engine (41_crc32.md R104, R105). -/

namespace Sys2Proof.Machine

/-! ## Runs -/

/-- `k` steps of the machine. -/
def runSteps (k : Nat) (s : State) : Host.Outcome State Fault Refusal := Host.Core.run Sys2Proof.core k s

/-- The machine after reset with an environment: the events it will bring, and the bytes its source will send. -/
def State.resetWith (inputs : List Event) (source : List Beat) : State :=
  { State.reset with inputs := inputs, source := source }

/-- A result exists only in DONE (60_exceptions.md R176). -/
def Block.hasResult (b : Block) : Bool := b.isDone

/-- The index of the first byte with `in_last` = 1 (43_verify.md R132's `e`), none if there is none. -/
def firstLast (source : List Beat) : Option Nat := source.findIdx? Beat.last

/-! ## Kinds of events -/

/-- The event clears the block: reset, or a CLEAR command (44_control.md R154, 70_reset_and_hazards.md R200). -/
def Event.clears (e : Event) : Prop :=
  match e with
  | .reset => True
  | .regRead _ => False
  | .regWrite i v => i = 0 ∧ (opcodeOf v).toNat = 6
  | .offer => False

/-- The event is a stream command written to `CMD`, opcodes 1 to 5. -/
def Event.streamCommand (e : Event) : Prop :=
  match e with
  | .reset => False
  | .regRead _ => False
  | .regWrite i v => i = 0 ∧ 1 ≤ (opcodeOf v).toNat ∧ (opcodeOf v).toNat ≤ 5
  | .offer => False

/-- The event is one of the three kinds of write that a block in this state refuses (10_state.md R28). -/
def Event.refusedBy (e : Event) (b : Block) : Prop :=
  match e with
  | .reset => False
  | .regRead _ => False
  | .regWrite i v =>
    (i = 0 ∧ 1 ≤ (opcodeOf v).toNat ∧ (opcodeOf v).toNat ≤ 5 ∧ b.busy = true) ∨ (i = 0 ∧ 7 ≤ (opcodeOf v).toNat)
      ∨ (i = 5 ∧ b.busy = true)
  | .offer => False

/-! ## The invariant -/

/-- Which error codes the command with a given opcode can raise (60_exceptions.md R173). -/
def mayRaise (op err : Code) : Prop :=
  (op = 1 ∧ (err = 2 ∨ err = 3)) ∨ (op = 2 ∧ (err = 2 ∨ err = 3 ∨ err = 8)) ∨ (op = 3 ∧ (err = 2 ∨ err = 8))
    ∨ (op = 4 ∧ (err = 4 ∨ err = 5))

/-- `OP` in each state (10_state.md R17, R19): the command whose state it is; DRAIN never fails (R173). -/
def Block.OpFits (b : Block) : Prop :=
  match b.state with
  | .idle => b.op = 0
  | .lenf => b.op = 1
  | .typef => b.op = 1
  | .payld => b.op = 1
  | .crcf => b.op = 1
  | .slice => b.op = 2
  | .genr => b.op = 3
  | .labelr => b.op = 4
  | .drainr => b.op = 5
  | .done => b.op = 1 ∨ b.op = 2 ∨ b.op = 3 ∨ b.op = 4 ∨ b.op = 5
  | .error => b.op = 1 ∨ b.op = 2 ∨ b.op = 3 ∨ b.op = 4

/-- `ERR` is 0 except in ERROR, where it is a code the command can raise (10_state.md R29, 60_exceptions.md R172,
R173). -/
def Block.ErrFits (b : Block) : Prop :=
  match b.state with
  | .error => mayRaise b.op b.err
  | _ => b.err = 0

/-- The range of `CNT` in each state (10_state.md R15), and its value in DONE (43_verify.md R125, R135, 42_generate.md
R115, 40_typecode.md R93, 44_control.md R155). -/
def Block.CntFits (b : Block) : Prop :=
  match b.state with
  | .idle => b.cnt = 0
  | .lenf => b.cnt.toNat < 4
  | .typef => b.cnt.toNat < 4
  | .payld => b.cnt.toNat < b.len.toNat
  | .crcf => b.cnt.toNat < 4
  | .slice => b.cnt.toNat ≤ 8
  | .genr => b.cnt.toNat ≤ 4
  | .labelr => b.cnt.toNat ≤ 5
  | .drainr => b.cnt = 0
  | .done => (b.op = 1 → b.cnt = 4) ∧ (b.op = 2 → b.cnt = 8) ∧ (b.op = 3 → b.cnt = 4) ∧ (b.op = 4 → b.cnt = 4)
      ∧ (b.op = 5 → b.cnt = 0)
  | .error => True

/-- `EOB`: no beat with `in_last` leaves a command going (44_control.md R161); every command but VERIFY ends at
`in_last`, and `Truncated`, `InvalidLength` and `InvalidByte` are raised only there (43_verify.md R131, R138,
40_typecode.md R94). -/
def Block.EobFits (b : Block) : Prop :=
  match b.state with
  | .done => b.op = 1 ∨ b.eob = true
  | .error => b.err = 3 ∨ b.err = 8 ∨ b.eob = true
  | _ => b.eob = false

/-- The data registers in each state: those a command does not use keep their start-up values (44_control.md R150,
10_state.md R14), and the two checksums agree or differ as the outcome says (10_state.md R34). `TYPE` can be written by
the host in IDLE, DONE and ERROR, so nothing is said of it there. -/
def Block.DataFits (b : Block) : Prop :=
  match b.state with
  | .idle => b.len = 0 ∧ b.crc = crcInit ∧ b.crcRx = 0
  | .lenf => b.type = 0 ∧ b.crc = crcInit ∧ b.crcRx = 0
  | .typef => b.crcRx = 0
  | .payld => b.crcRx = 0
  | .crcf => True
  | .slice => (b.cnt.toNat < 8 → b.len = 0) ∧ (b.cnt.toNat ≤ 4 → b.type = 0 ∧ b.crc = crcInit)
  | .genr => b.crcRx = 0 ∧ (b.cnt.toNat < 4 → b.len = 0)
  | .labelr => b.len = 0 ∧ b.crc = crcInit ∧ b.crcRx = 0
  | .drainr => b.len = 0 ∧ b.type = 0 ∧ b.crc = crcInit ∧ b.crcRx = 0
  | .done => (b.op = 1 ∨ b.op = 2 → b.crcRx = ~~~ b.crc) ∧ (b.op = 3 → b.crcRx = 0)
      ∧ (b.op = 4 ∨ b.op = 5 → b.len = 0 ∧ b.crc = crcInit ∧ b.crcRx = 0)
  | .error => (b.err = 3 → b.crcRx ≠ ~~~ b.crc) ∧ (b.err = 8 → b.len = lenMax) ∧ (b.op = 3 ∨ b.op = 4 → b.crcRx = 0)

/-- The block's invariant: what the spec says of every state a run can reach. -/
structure Block.Inv (b : Block) : Prop where
  opFits : b.OpFits
  errFits : b.ErrFits
  cntFits : b.CntFits
  eobFits : b.EobFits
  dataFits : b.DataFits

/-! ## The transition table (44_control.md R160) -/

/-- The columns VERIFY to DRAIN: from IDLE, DONE and ERROR to the command's state, elsewhere "-" (refused). -/
def tableCommand (entry q : Seq) : Seq :=
  match q with
  | .idle => entry
  | .done => entry
  | .error => entry
  | q => q

/-- The column `Beat(d, l)`. -/
def tableBeat (d : Byte) (l : Bool) (b : Block) : Seq :=
  match b.state with
  | .idle => .idle
  | .done => .done
  | .error => .error
  | .lenf => if l then .error else if b.cnt = 3 then .typef else .lenf
  | .typef => if l then .error else if b.cnt = 3 then (if b.len = 0 then .crcf else .payld) else .typef
  | .payld => if l then .error else if b.cnt + 1 = b.len then .crcf else .payld
  | .crcf =>
    if b.cnt = 3 then (if shiftIn b.crcRx d = ~~~ b.crc then .done else .error)
    else if l then .error else .crcf
  | .slice =>
    if b.cnt = 8 ∧ b.len = 0xFFFFFFFF then .error
    else if l then
      (if b.cnt.toNat < 7 then .error
       else if shiftIn b.crcRx d = ~~~ (crcUpdate b.crc (byte0 b.crcRx)) then .done else .error)
    else .slice
  | .genr =>
    if b.cnt = 4 ∧ b.len = 0xFFFFFFFF then .error
    else if l then (if b.cnt.toNat < 3 then .error else .done)
    else .genr
  | .labelr =>
    if l then (if b.cnt ≠ 3 then .error else if isAlpha (shiftIn b.type d) then .done else .error) else .labelr
  | .drainr => if l then .done else .drainr

/-- The table's entry for the event `e` in the state of `s`. -/
def tableNext (e : Event) (s : State) : Seq :=
  match e with
  | .reset => .idle
  | .regRead _ => s.block.state
  | .regWrite i v =>
    if i = 0 then
      (if opcodeOf v = 1 then tableCommand .lenf s.block.state
       else if opcodeOf v = 2 then tableCommand .slice s.block.state
       else if opcodeOf v = 3 then tableCommand .genr s.block.state
       else if opcodeOf v = 4 then tableCommand .labelr s.block.state
       else if opcodeOf v = 5 then tableCommand .drainr s.block.state
       else if opcodeOf v = 6 then .idle
       else s.block.state)
    else s.block.state
  | .offer =>
    match s.source with
    | [] => s.block.state
    | byte :: _ => tableBeat byte.data byte.last s.block

/-! ## The bytes fed to the CRC engine -/

/-- The bytes a beat feeds to the engine (41_crc32.md R105): in VERIFYS the byte released from the delay line. -/
def fedBytes (d : Byte) (b : Block) : List Byte :=
  match b.state with
  | .typef => [d]
  | .payld => [d]
  | .slice => if 4 ≤ b.cnt.toNat ∧ ¬(8 ≤ b.cnt.toNat ∧ b.len = 0xFFFFFFFF) then [byte0 b.crcRx] else []
  | .genr => if 4 ≤ b.cnt.toNat ∧ b.len = 0xFFFFFFFF then [] else [d]
  | _ => []

/-- The string fed since the accumulator was last set to 0xFFFFFFFF (R104), after the next event of `s`, when it was
`fed` before: started anew by reset, CLEAR and an accepted stream command, lengthened by a beat. -/
def fedAfter (s : State) (fed : List Byte) : List Byte :=
  match s.inputs with
  | [] => fed
  | .reset :: _ => []
  | .regRead _ :: _ => fed
  | .regWrite i v :: _ =>
    if i = 0 ∧ (opcodeOf v = 6 ∨ (s.block.busy = false ∧ 1 ≤ (opcodeOf v).toNat ∧ (opcodeOf v).toNat ≤ 5)) then []
    else fed
  | .offer :: _ =>
    match s.source with
    | [] => fed
    | byte :: _ => fed ++ fedBytes byte.data s.block

end Sys2Proof.Machine
end

