-- ==== Sys2Proof/Certificates/Slice0/Obligations.lean ====
section
/-! DEFINITION. The statements about the block, each from the rules of spec/ it names. Where a rule gives values they
are written out here and not taken from the meanings. -/

open Sys2Proof Sys2Proof.Machine

/-! ## Reset (10_state.md R37, 70_reset_and_hazards.md R200, R201) -/

/-- R37: every element's value after reset, and what the outputs are. The machine's three environment lists are the
model's own (log 3). -/
def Obligations.ResetStateValues : Prop :=
  State.reset.block =
    { state := .idle, op := 0, len := 0, type := 0, crc := 0xFFFFFFFF, crcRx := 0, cnt := 0, err := 0, eob := false,
      cmderr := false, ieDone := false, ieErr := false }
  ∧ State.reset.block.inReady = false ∧ State.reset.block.irq = false

/-- R200: in a cycle with `rst` = 1 every element takes its reset value, whatever the state and the other pins; no
other event happens (nothing is read, written or consumed, and `in_ready` is 0). The effect is that of CLEAR with
`CTRL` cleared. -/
def Obligations.ResetOverridesAndRestoresAll : Prop :=
  ∀ (p : Pins) (s : State), p.rst = true →
    clockCycle p s = .next { s with block :=
      { state := .idle, op := 0, len := 0, type := 0, crc := 0xFFFFFFFF, crcRx := 0, cnt := 0, err := 0, eob := false,
        cmderr := false, ieDone := false, ieErr := false } }
    ∧ cycleInReady p s = false
    ∧ ∃ t, exec (.clear 0) s = .next t ∧
        clockCycle p s = .next { t with block := { t.block with ieDone := false, ieErr := false } }

/-- R201: what the 16 indices read straight after the event `Reset`, from any state, and the two outputs. -/
def Obligations.ReadsStraightAfterReset : Prop :=
  ∀ s : State, ∃ t, runEvent .reset s = .next t ∧
    (∀ i : RegIndex, t.block.read i = if i = 6 then 0x00000007 else 0x00000000) ∧
    t.block.inReady = false ∧ t.block.irq = false

/-! ## Registers (10_state.md R22, R23, R36) -/

/-- R23: every field of the word that index 2 reads as, for every state of the block; with the eleven codes of R17, BUSY
exactly in codes 1 to 8 (R24), DONE in code 9 alone (R25) and ERROR in code 10 alone (R26). A row of the list is `STATE`,
then bits 11:8, 0, 1 and 2 of the word; each `STATE` has one row. -/
def Obligations.StatusWordFields : Prop :=
  ∀ b : Block,
    (b.state, (b.read 2).extractLsb' 8 4, (b.read 2).getLsbD 0, (b.read 2).getLsbD 1, (b.read 2).getLsbD 2) ∈
      ([(.idle, 0, false, false, false), (.lenf, 1, true, false, false), (.typef, 2, true, false, false),
        (.payld, 3, true, false, false), (.crcf, 4, true, false, false), (.slice, 5, true, false, false),
        (.genr, 6, true, false, false), (.labelr, 7, true, false, false), (.drainr, 8, true, false, false),
        (.done, 9, false, true, false), (.error, 10, false, false, true)] : List (Seq × Code × Bool × Bool × Bool)) ∧
    (b.read 2).getLsbD 0 = b.busy ∧ (b.read 2).getLsbD 1 = b.isDone ∧ (b.read 2).getLsbD 2 = b.isError ∧
    (b.read 2).getLsbD 3 = b.eob ∧ (b.read 2).getLsbD 4 = b.cmderr ∧ (b.read 2).extractLsb' 5 3 = 0 ∧
    (b.read 2).extractLsb' 12 4 = b.op ∧ (b.read 2).extractLsb' 16 16 = 0

/-- R20, R21, R29 to R36: what each of the other indices reads as, for every state of the block. -/
def Obligations.RegisterMapReads : Prop :=
  ∀ b : Block,
    b.read 0 = 0 ∧ b.read 3 = b.err.setWidth 32 ∧ b.read 4 = b.len ∧ b.read 5 = b.type ∧
    b.read 6 = (props b.type).setWidth 32 ∧ b.read 7 = b.crc ^^^ 0xFFFFFFFF ∧ b.read 8 = b.crcRx ∧ b.read 9 = b.cnt ∧
    ∀ i : RegIndex, 10 ≤ i.toNat → b.read i = 0

/-- R50 (and R41): a `RegRead` returns the register's value and changes no element and consumes no byte. That the value
goes into `returned` is the model's own (log 4). -/
def Obligations.ReadsHaveNoSideEffects : Prop :=
  ∀ (s : State) (i : RegIndex) (more : List Event), s.inputs = .regRead i :: more →
    step s = .next { s with inputs := more, returned := s.block.read i :: s.returned }

/-- R36: indices 10 to 15 read 0 and change no element (the value is recorded in `returned`, log 4); a write to them or
to a read-only register changes nothing, `CMDERR` included. -/
def Obligations.UnmappedAndReadOnlyWritesIgnored : Prop :=
  (∀ (s : State) (i : RegIndex) (more : List Event), s.inputs = .regRead i :: more → 10 ≤ i.toNat →
    s.block.read i = 0 ∧ step s = .next { s with inputs := more, returned := 0 :: s.returned }) ∧
  ∀ (s : State) (i : RegIndex) (v : Word) (more : List Event),
    s.inputs = .regWrite i v :: more →
    i ∈ [2, 3, 4, 6, 7, 8, 9, 10, 11, 12, 13, 14, 15] →
    step s = .next { s with inputs := more }

/-- R22, R158: a write to `CTRL` sets the two enables from bits 0 and 1 in every state and changes nothing else; a
read gives the enables back, the reserved bits 0; `irq` follows at once (R180); CLEAR keeps both and reset clears both. -/
def Obligations.CtrlWrittenInEveryState : Prop :=
  (∀ (s : State) (v : Word) (more : List Event), s.inputs = .regWrite 1 v :: more →
    step s = .next { s with inputs := more,
                            block := { s.block with ieDone := v.getLsbD 0, ieErr := v.getLsbD 1 } }) ∧
  (∀ b : Block, b.read 1 = (if b.ieDone then 1 else 0) ||| (if b.ieErr then 2 else 0)) ∧
  (∀ (s : State) (ieDone ieErr : Bool) (ign : BitVec 30), ∃ t,
    exec (.wrCtrl ieDone ieErr ign) s = .next t ∧
    t = { s with block := { s.block with ieDone := ieDone, ieErr := ieErr } } ∧
    t.block.irq = ((ieDone && s.block.state == .done) || (ieErr && s.block.state == .error))) ∧
  (∀ (s : State) (ign : BitVec 28), ∃ t, exec (.clear ign) s = .next t ∧
    t.block.ieDone = s.block.ieDone ∧ t.block.ieErr = s.block.ieErr) ∧
  (∀ s : State, ∃ t, runEvent .reset s = .next t ∧ t.block.ieDone = false ∧ t.block.ieErr = false)

/-! ## Commands (44_control.md R150 to R156, 30_encoding.md R66, R68) -/

/-- R150: an accepted stream command; each of the five completes, in IDLE, DONE and ERROR, with exactly this block, and
the registers then read as R150 says, `STATUS` with the codes of R17 written out. -/
def Obligations.StreamCommandStartsWhenNotBusy : Prop :=
  ∀ (s : State) (ign : BitVec 28) (i : Instr) (op : Code) (q : Seq) (status : Word),
    (i, op, q, status) ∈ [(.verify ign, 1, .lenf, 0x00001101), (.verifys ign, 2, .slice, 0x00002501),
      (.gen ign, 3, .genr, 0x00003601), (.label ign, 4, .labelr, 0x00004701), (.drain ign, 5, .drainr, 0x00005801)] →
    s.block.busy = false →
    ∃ b : Block,
      b = { state := q, op := op, len := 0, type := 0, crc := 0xFFFFFFFF, crcRx := 0, cnt := 0, err := 0,
            eob := false, cmderr := s.block.cmderr, ieDone := s.block.ieDone, ieErr := s.block.ieErr } ∧
      exec i s = .next { s with block := b } ∧
      b.inReady = true ∧ b.irq = false ∧
      b.read 2 = status ||| (if s.block.cmderr then 16 else 0) ∧
      b.read 3 = 0 ∧ b.read 4 = 0 ∧ b.read 5 = 0 ∧ b.read 6 = 7 ∧ b.read 7 = 0 ∧ b.read 8 = 0 ∧ b.read 9 = 0

/-- R151: a stream command while BUSY sets `CMDERR` and does nothing else; each of the five. -/
def Obligations.StreamCommandRefusedWhileBusy : Prop :=
  ∀ (s : State) (ign : BitVec 28) (i : Instr),
    i ∈ [Instr.verify ign, .verifys ign, .gen ign, .label ign, .drain ign] →
    s.block.busy = true →
    exec i s = .next { s with block := { s.block with cmderr := true } }

/-- R152: NOP completes in every state and changes nothing. -/
def Obligations.NopChangesNothing : Prop :=
  ∀ (s : State) (ign : BitVec 28), exec (.nop ign) s = .next s

/-- R154: CLEAR completes in every state, BUSY included, with exactly this block; every register but `CTRL` then reads
as after reset, and all five status flags are 0. That `TYPE` becomes 0 in IDLE too, against R154's corner case (c), is the
model's reading (log 20). -/
def Obligations.ClearRestoresAllButCtrl : Prop :=
  ∀ (s : State) (ign : BitVec 28), ∃ b : Block,
    b = { state := .idle, op := 0, len := 0, type := 0, crc := 0xFFFFFFFF, crcRx := 0, cnt := 0, err := 0,
          eob := false, cmderr := false, ieDone := s.block.ieDone, ieErr := s.block.ieErr } ∧
    exec (.clear ign) s = .next { s with block := b } ∧
    (∀ i : RegIndex, i ≠ 1 → b.read i = State.reset.block.read i) ∧ b.read 1 = s.block.read 1 ∧
    b.inReady = false ∧ b.irq = false

/-- R90: `RegWrite(5, v)` stores `v` when not BUSY and is refused while BUSY; as an instruction, its four operand bytes
are stored byte 0 first. -/
def Obligations.TypeWriteStoredOrRefused : Prop :=
  (∀ (s : State) (v : Word) (more : List Event), s.inputs = .regWrite 5 v :: more →
    step s = .next { s with
      inputs := more
      block := if s.block.busy then { s.block with cmderr := true } else { s.block with type := v } }) ∧
  (∀ (s : State) (b0 b1 b2 b3 : Byte), s.block.busy = false → ∃ t,
    exec (.wrType b0 b1 b2 b3) s = .next t ∧ t = { s with block := { s.block with type := t.block.type } } ∧
    t.block.type.toNat = b0.toNat * 2 ^ 24 + b1.toNat * 2 ^ 16 + b2.toNat * 2 ^ 8 + b3.toNat) ∧
  (∀ (s : State) (b0 b1 b2 b3 : Byte), s.block.busy = true →
    exec (.wrType b0 b1 b2 b3) s = .next { s with block := { s.block with cmderr := true } })

/-- R68: a reserved opcode, 0x7 to 0xF, in every state sets `CMDERR` and changes nothing else. -/
def Obligations.ReservedOpcodeRefusedInEveryState : Prop :=
  ∀ (s : State) (v : Word) (more : List Event), s.inputs = .regWrite 0 v :: more → 7 ≤ (opcodeOf v).toNat →
    step s = .next { s with inputs := more, block := { s.block with cmderr := true } }

/-- R66: only bits 3:0 of a command word are looked at. -/
def Obligations.CommandWordUpperBitsIgnored : Prop :=
  ∀ (s : State) (v w : Word), v.extractLsb' 0 4 = w.extractLsb' 0 4 →
    runEvent (.regWrite 0 v) s = runEvent (.regWrite 0 w) s

/-! ## Beats (43_verify.md R126 to R129, R136, 42_generate.md R116, 40_typecode.md R94, 44_control.md R156) -/

/-- R126: `Beat(d, l)` in LENF. -/
def Obligations.BeatInLengthField : Prop :=
  ∀ (s : State) (d : Byte) (l : Bool) (rest : List Beat) (more : List Event),
    s.block.state = .lenf → s.source = ⟨d, l⟩ :: rest → s.inputs = .offer :: more →
    ∃ b : Block,
      b = { s.block with eob := l, len := (s.block.len <<< 8) ||| d.setWidth 32, cnt := s.block.cnt + 1 } ∧
      step s = .next { s with inputs := more, source := rest, block :=
        if l then { b with err := 2, state := .error }
        else if b.cnt = 4 then { b with cnt := 0, state := .typef } else b }

/-- R127: `Beat(d, l)` in TYPEF. -/
def Obligations.BeatInTypeField : Prop :=
  ∀ (s : State) (d : Byte) (l : Bool) (rest : List Beat) (more : List Event),
    s.block.state = .typef → s.source = ⟨d, l⟩ :: rest → s.inputs = .offer :: more →
    ∃ b : Block,
      b = { s.block with eob := l, type := (s.block.type <<< 8) ||| d.setWidth 32, crc := crcUpdate s.block.crc d,
                         cnt := s.block.cnt + 1 } ∧
      step s = .next { s with inputs := more, source := rest, block :=
        if l then { b with err := 2, state := .error }
        else if b.cnt = 4 then { b with cnt := 0, state := if b.len = 0 then .crcf else .payld } else b }

/-- R128: `Beat(d, l)` in PAYLD. -/
def Obligations.BeatInPayload : Prop :=
  ∀ (s : State) (d : Byte) (l : Bool) (rest : List Beat) (more : List Event),
    s.block.state = .payld → s.source = ⟨d, l⟩ :: rest → s.inputs = .offer :: more →
    ∃ b : Block,
      b = { s.block with eob := l, crc := crcUpdate s.block.crc d, cnt := s.block.cnt + 1 } ∧
      step s = .next { s with inputs := more, source := rest, block :=
        if l then { b with err := 2, state := .error }
        else if b.cnt = b.len then { b with cnt := 0, state := .crcf } else b }

/-- R129: `Beat(d, l)` in CRCF. -/
def Obligations.BeatInChecksumField : Prop :=
  ∀ (s : State) (d : Byte) (l : Bool) (rest : List Beat) (more : List Event),
    s.block.state = .crcf → s.source = ⟨d, l⟩ :: rest → s.inputs = .offer :: more →
    ∃ b : Block,
      b = { s.block with eob := l, crcRx := (s.block.crcRx <<< 8) ||| d.setWidth 32, cnt := s.block.cnt + 1 } ∧
      step s = .next { s with inputs := more, source := rest, block :=
        if b.cnt.toNat < 4 then (if l then { b with err := 2, state := .error } else b)
        else if b.crcRx = ~~~ b.crc then { b with state := .done } else { b with err := 3, state := .error } }

/-- R136: `Beat(d, l)` in SLICE. `r` is the block after the delay line has released its oldest byte. -/
def Obligations.BeatInSlice : Prop :=
  ∀ (s : State) (d : Byte) (l : Bool) (rest : List Beat) (more : List Event),
    s.block.state = .slice → s.source = ⟨d, l⟩ :: rest → s.inputs = .offer :: more →
    (8 ≤ s.block.cnt.toNat ∧ s.block.len = 0xFFFFFFFF →
      step s = .next { s with inputs := more, source := rest,
                              block := { s.block with eob := l, err := 8, state := .error } }) ∧
    (¬(8 ≤ s.block.cnt.toNat ∧ s.block.len = 0xFFFFFFFF) →
      ∃ (out : Byte) (r b : Block),
        out = s.block.crcRx.extractLsb' 24 8 ∧
        r = (if s.block.cnt.toNat < 4 then s.block
             else if s.block.cnt.toNat < 8 then
               { s.block with crc := crcUpdate s.block.crc out, type := (s.block.type <<< 8) ||| out.setWidth 32 }
             else { s.block with crc := crcUpdate s.block.crc out, len := s.block.len + 1 }) ∧
        b = { r with eob := l, crcRx := (s.block.crcRx <<< 8) ||| d.setWidth 32,
                     cnt := if 7 ≤ s.block.cnt.toNat then 8 else s.block.cnt + 1 } ∧
        step s = .next { s with inputs := more, source := rest, block :=
          if l then
            (if b.cnt.toNat < 8 then { b with err := 2, state := .error }
             else if b.crcRx = ~~~ b.crc then { b with state := .done } else { b with err := 3, state := .error })
          else b })

/-- R116: `Beat(d, l)` in GENR. -/
def Obligations.BeatInGenerate : Prop :=
  ∀ (s : State) (d : Byte) (l : Bool) (rest : List Beat) (more : List Event),
    s.block.state = .genr → s.source = ⟨d, l⟩ :: rest → s.inputs = .offer :: more →
    (4 ≤ s.block.cnt.toNat ∧ s.block.len = 0xFFFFFFFF →
      step s = .next { s with inputs := more, source := rest,
                              block := { s.block with eob := l, err := 8, state := .error } }) ∧
    (¬(4 ≤ s.block.cnt.toNat ∧ s.block.len = 0xFFFFFFFF) →
      ∃ b : Block,
        b = (if s.block.cnt.toNat < 4 then
               { s.block with eob := l, crc := crcUpdate s.block.crc d, type := (s.block.type <<< 8) ||| d.setWidth 32,
                              cnt := s.block.cnt + 1 }
             else { s.block with eob := l, crc := crcUpdate s.block.crc d, len := s.block.len + 1 }) ∧
        step s = .next { s with inputs := more, source := rest, block :=
          if l then (if b.cnt.toNat < 4 then { b with err := 2, state := .error } else { b with state := .done })
          else b })

/-- R94: `Beat(d, l)` in LABELR. -/
def Obligations.BeatInLabel : Prop :=
  ∀ (s : State) (d : Byte) (l : Bool) (rest : List Beat) (more : List Event),
    s.block.state = .labelr → s.source = ⟨d, l⟩ :: rest → s.inputs = .offer :: more →
    ∃ b : Block,
      b = { s.block with
              eob := l,
              type := if s.block.cnt.toNat < 4 then (s.block.type <<< 8) ||| d.setWidth 32 else s.block.type,
              cnt := if 4 ≤ s.block.cnt.toNat then 5 else s.block.cnt + 1 } ∧
      step s = .next { s with inputs := more, source := rest, block :=
        if l then
          (if b.cnt ≠ 4 then { b with err := 4, state := .error }
           else if isAlpha b.type then { b with state := .done } else { b with err := 5, state := .error })
        else b }

/-- R156: `Beat(d, l)` in DRAINR. -/
def Obligations.BeatInDrain : Prop :=
  ∀ (s : State) (d : Byte) (l : Bool) (rest : List Beat) (more : List Event),
    s.block.state = .drainr → s.source = ⟨d, l⟩ :: rest → s.inputs = .offer :: more →
    step s = .next { s with inputs := more, source := rest,
                            block := { s.block with eob := l, state := if l then .done else .drainr } }

/-- R43: `in_ready` = `BUSY`, on the state after the cycle's register access; every byte offered while BUSY is consumed
in that cycle, whatever it is, and none is consumed in IDLE, DONE or ERROR. -/
def Obligations.ByteConsumedExactlyWhenBusy : Prop :=
  (∀ b : Block, b.inReady = b.busy) ∧
  ∀ (p : Pins) (s a : State), p.rst = false → runEvents p.access s = .next a →
    cycleInReady p s = a.block.busy ∧
    (p.inValid = true → ∃ t, clockCycle p s = .next t ∧ t.inputs = a.inputs ∧ t.returned = a.returned ∧
      (a.block.busy = true → t.source = a.source.tail) ∧ (a.block.busy = false → t = a))

/-! ## Errors, DONE and ERROR, waiting (60_exceptions.md, 70_reset_and_hazards.md R206) -/

/-- R170, R175: ERROR is entered by a beat only, which is consumed and is the last one consumed; `ERR` gets a raised
code, `EOB` the beat's `in_last`; no mode, mask or flag changes. -/
def Obligations.ErrorEntryIsPrecise : Prop :=
  ∀ s t : State, step s = .next t → s.block.state ≠ .error → t.block.state = .error →
    ∃ (byte : Beat) (rest : List Beat) (more : List Event),
      s.inputs = .offer :: more ∧ t.inputs = more ∧ s.source = byte :: rest ∧ t.source = rest ∧
      s.block.busy = true ∧ t.block.inReady = false ∧ t.block.err ∈ ([2, 3, 4, 5, 8] : List Code) ∧
      t.block.eob = byte.last ∧ t.block.op = s.block.op ∧ t.block.cmderr = s.block.cmderr ∧
      t.block.ieDone = s.block.ieDone ∧ t.block.ieErr = s.block.ieErr ∧ t.returned = s.returned ∧
      t.block.irq = s.block.ieErr

/-- R177, R178, R159: in IDLE, DONE and ERROR nothing but an accepted stream command, CLEAR or reset changes `STATE`, `ERR`,
`OP`, `EOB`, `LEN`, `CRC`, `CRC_RX`, `CNT`, and no byte is consumed. -/
def Obligations.NotBusyStatesPersist : Prop :=
  ∀ (s t : State) (e : Event) (more : List Event),
    s.inputs = e :: more → step s = .next t → s.block.busy = false →
    ¬e.clears → ¬e.streamCommand →
    t.source = s.source ∧ t.block = { s.block with type := t.block.type, cmderr := t.block.cmderr,
                                                   ieDone := t.block.ieDone, ieErr := t.block.ieErr }

/-- R206: while BUSY with no byte left, no number of offers, reads and NOPs ends the command or changes the block: the
block has no time-out. The way out is CLEAR or reset. -/
def Obligations.NoTimeOutWhileBusy : Prop :=
  (∀ (evs : List Event) (s t : State), s.block.busy = true → s.source = [] →
    (∀ e ∈ evs, e = .offer ∨ (∃ i, e = .regRead i) ∨ ∃ v, e = .regWrite 0 v ∧ opcodeOf v = 0) →
    s.inputs = evs → runSteps evs.length s = .next t →
    t.block = s.block ∧ t.block.inReady = true ∧ t.block.isDone = false ∧ t.block.isError = false
      ∧ t.block.irq = false) ∧
  (∀ s : State, s.block.busy = true →
    (∃ t, exec (.clear 0) s = .next t ∧ t.block.state = .idle) ∧ ∃ t, runEvent .reset s = .next t ∧ t.block.state = .idle)

/-- R172 and R29: for every environment, whatever the number of steps from reset, `ERR` read in ERROR is one of 2, 3, 4,
5, 8 (so 1, 6, 7 and 9 to 15 are never written), and it reads 0 in every other state. A corollary of InvariantAtReset and
StepKeepsInvariant; the environment as two lists is the model's own (log 1). -/
def Obligations.ErrAlwaysALegalCode : Prop :=
  ∀ (k : Nat) (inputs : List Event) (source : List Beat) (t : State),
    runSteps k (State.resetWith inputs source) = .next t →
    (t.block.state = .error → t.block.read 3 ∈ ([2, 3, 4, 5, 8] : List Word)) ∧
    (t.block.state ≠ .error → t.block.read 3 = 0)

/-- R26 (with the invariant for `ERR`): `BUSY`, `DONE` and `ERROR` exclude each other, and in ERROR `ERR` is not 0. -/
def Obligations.StatusFlagsExclusive : Prop :=
  ∀ b : Block,
    b.isError = (b.state == .error) ∧ ¬(b.isDone = true ∧ b.isError = true) ∧ ¬(b.busy = true ∧ b.isDone = true) ∧
    ¬(b.busy = true ∧ b.isError = true) ∧ (b.Inv → b.isError = true → b.err ≠ 0)

/-- R180: `irq` is the level (IE_DONE and DONE) or (IE_ERR and ERROR), 0 after reset; it rises and falls with the event
that enters or leaves the state or writes the enable, and a register read does not change it. -/
def Obligations.IrqIsALevelOfState : Prop :=
  State.reset.block.irq = false ∧
  ∀ s t : State, step s = .next t →
    (t.block.state = .done → t.block.irq = t.block.ieDone) ∧ (t.block.state = .error → t.block.irq = t.block.ieErr) ∧
    (t.block.state ≠ .done → t.block.state ≠ .error → t.block.irq = false) ∧
    (∀ i more, s.inputs = .regRead i :: more → t.block.irq = s.block.irq)

/-! ## Who writes what (whole-machine rules) -/

/-- R160 (and R18): every change of `STATE`, from every state the invariant allows, is the table's entry. -/
def Obligations.StateFollowsTransitionTable : Prop :=
  ∀ (s t : State) (e : Event) (more : List Event),
    s.block.Inv → s.inputs = e :: more → step s = .next t → t.block.state = tableNext e s

/-- R28: `CMDERR` is set by exactly three kinds of write, which have no other effect, and cleared only by CLEAR and
reset. -/
def Obligations.CmderrSetAndClearedOnlyBy : Prop :=
  ∀ (s t : State) (e : Event) (more : List Event), s.inputs = e :: more → step s = .next t →
    (t.block.cmderr = true ↔ e.refusedBy s.block ∨ (s.block.cmderr = true ∧ ¬e.clears)) ∧
    (e.refusedBy s.block → t = { s with inputs := more, block := { s.block with cmderr := true } })

/-- R27: `EOB` is written by every accepted beat, with its `in_last`; the start of a stream command, CLEAR and reset
write it to 0; nothing else writes it. -/
def Obligations.EobWrittenOnlyBy : Prop :=
  ∀ (s t : State) (e : Event) (more : List Event), s.inputs = e :: more → step s = .next t →
    (∀ byte rest, e = .offer → s.source = byte :: rest → s.block.busy = true → t.block.eob = byte.last) ∧
    (e.clears ∨ (e.streamCommand ∧ s.block.busy = false) → t.block.eob = false) ∧
    (¬e.clears → (e.streamCommand → s.block.busy = true) → (e = .offer → s.source = [] ∨ s.block.busy = false) →
      t.block.eob = s.block.eob)

/-- R19: `OP` takes the opcode of an accepted stream command, is set to 0 by CLEAR and reset, and changes in no other
event. -/
def Obligations.OpWrittenOnlyBy : Prop :=
  ∀ (s t : State) (e : Event) (more : List Event), s.inputs = e :: more → step s = .next t →
    (∀ v, e = .regWrite 0 v → 1 ≤ (opcodeOf v).toNat → (opcodeOf v).toNat ≤ 5 → s.block.busy = false →
      t.block.op = opcodeOf v) ∧
    (e.clears → t.block.op = 0) ∧
    (¬e.clears → (e.streamCommand → s.block.busy = true) → t.block.op = s.block.op)

/-- R11 to R14, R22: the data registers and `CTRL`. In an event that is no accepted stream command, no CLEAR and no
reset, `LEN`, `CRC`, `CRC_RX` and `CNT` change only on a beat taken while BUSY, and `TYPE` only there or by a write to
register 5 when not BUSY. `CTRL` changes only by a write to register 1 and by reset. -/
def Obligations.DataRegistersWrittenOnlyBy : Prop :=
  ∀ (s t : State) (e : Event) (more : List Event), s.inputs = e :: more → step s = .next t →
    (¬e.clears → (e.streamCommand → s.block.busy = true) → (e = .offer → s.source = [] ∨ s.block.busy = false) →
      t.block.len = s.block.len ∧ t.block.crc = s.block.crc ∧ t.block.crcRx = s.block.crcRx ∧
      t.block.cnt = s.block.cnt ∧ t.source = s.source ∧
      ((∀ v, e = .regWrite 5 v → s.block.busy = true) → t.block.type = s.block.type)) ∧
    (e ≠ .reset → (∀ v, e ≠ .regWrite 1 v) → t.block.ieDone = s.block.ieDone ∧ t.block.ieErr = s.block.ieErr)

/-- The frame of every instruction: what `exec` leaves unchanged when it answers a next state. The environment's lists
are never touched. -/
def Obligations.InstructionFrames : Prop :=
  ∀ (i : Instr) (s t : State), exec i s = .next t →
    t.inputs = s.inputs ∧ t.source = s.source ∧ t.returned = s.returned ∧
    ((∃ ign, i = .nop ign) → t.block = s.block) ∧
    ((∃ ign, i = .verify ign ∨ i = .verifys ign ∨ i = .gen ign ∨ i = .label ign ∨ i = .drain ign) →
      t.block.ieDone = s.block.ieDone ∧ t.block.ieErr = s.block.ieErr ∧
      (s.block.busy = false → t.block.cmderr = s.block.cmderr) ∧
      (s.block.busy = true → t.block = { s.block with cmderr := t.block.cmderr })) ∧
    ((∃ ign, i = .clear ign) → t.block.ieDone = s.block.ieDone ∧ t.block.ieErr = s.block.ieErr) ∧
    ((∃ d e ign, i = .wrCtrl d e ign) →
      t.block = { s.block with ieDone := t.block.ieDone, ieErr := t.block.ieErr }) ∧
    ((∃ b0 b1 b2 b3, i = .wrType b0 b1 b2 b3) →
      (s.block.busy = false → t.block = { s.block with type := t.block.type }) ∧
      (s.block.busy = true → t.block = { s.block with cmderr := t.block.cmderr }))

/-! ## The invariant -/

/-- The invariant holds right after reset. -/
def Obligations.InvariantAtReset : Prop := State.reset.block.Inv

/-- Every step keeps the invariant (R15, R17, R19, R29, R34, R172, R173 as the spec states them of every state). -/
def Obligations.StepKeepsInvariant : Prop :=
  ∀ s t : State, s.block.Inv → step s = .next t → t.block.Inv

/-- R161: a beat with `in_last` = 1 ends whatever command is in progress, in DONE or ERROR. -/
def Obligations.LastByteEndsEveryCommand : Prop :=
  ∀ (s t : State) (d : Byte) (rest : List Beat) (more : List Event),
    s.block.busy = true → s.inputs = .offer :: more → s.source = ⟨d, true⟩ :: rest → step s = .next t →
    (t.block.state = .done ∨ t.block.state = .error) ∧ t.source = rest ∧ t.block.eob = true

/-! ## The type-code decoder (40_typecode.md) -/

/-- R87, with the bits of R81 to R86: what register 6 reads as, for every `TYPE`; with the letters of R80 written out as
its ranges (which the spec itself takes from general knowledge, log 16), and the letter test on the eight bytes at their
ends. -/
def Obligations.PropsBitsDecodeType : Prop :=
  (∀ (b : Block) (t : Word), b.type = t →
    ∀ allLetters : Bool,
      (allLetters = true ↔
        ∀ d ∈ ([t.extractLsb' 24 8, t.extractLsb' 16 8, t.extractLsb' 8 8, t.extractLsb' 0 8] : List Byte),
          (0x41 ≤ d.toNat ∧ d.toNat ≤ 0x5A) ∨ (0x61 ≤ d.toNat ∧ d.toNat ≤ 0x7A)) →
      (b.read 6).getLsbD 0 = !t.getLsbD 29 ∧ (b.read 6).getLsbD 1 = !t.getLsbD 21 ∧
      (b.read 6).getLsbD 2 = !t.getLsbD 13 ∧ (b.read 6).getLsbD 3 = t.getLsbD 5 ∧
      (b.read 6).getLsbD 4 = (allLetters && !t.getLsbD 13) ∧ (b.read 6).getLsbD 5 = allLetters ∧
      (b.read 6).extractLsb' 6 26 = 0 ∧ isAlpha t = allLetters) ∧
  (∀ d : Byte, alpha d = true ↔ (0x41 ≤ d.toNat ∧ d.toNat ≤ 0x5A) ∨ (0x61 ≤ d.toNat ∧ d.toNat ≤ 0x7A)) ∧
  alpha 0x40 = false ∧ alpha 0x41 = true ∧ alpha 0x5A = true ∧ alpha 0x5B = false ∧
  alpha 0x60 = false ∧ alpha 0x61 = true ∧ alpha 0x7A = true ∧ alpha 0x7B = false

/-! ## The CRC engine (41_crc32.md) -/

/-- R102: the table form of `crc_update`, for every accumulator and byte, and the sample entries. -/
def Obligations.CrcTableFormAgrees : Prop :=
  (∀ (c : Word) (d : Byte), crcUpdate c d = crcTable ((c ^^^ d.setWidth 32).extractLsb' 0 8) ^^^ (c >>> 8)) ∧
  crcTable 0 = 0x00000000 ∧ crcTable 1 = 0x77073096 ∧ crcTable 2 = 0xEE0E612C ∧ crcTable 3 = 0x990951BA ∧
  crcTable 4 = 0x076DC419 ∧ crcTable 8 = 0x0EDB8832 ∧ crcTable 16 = 0x1DB71064 ∧ crcTable 32 = 0x3B6E20C8 ∧
  crcTable 64 = 0x76DC4190 ∧ crcTable 128 = 0xEDB88320 ∧ crcTable 255 = 0x2D02EF8D

/-- R107 and R100: the known vector, 46 bytes, and the check value. -/
def Obligations.CrcKnownVectors : Prop :=
  crc32 ([0x52, 0x75, 0x53, 0x74] ++
    [0x54, 0x68, 0x69, 0x73, 0x20, 0x69, 0x73, 0x20, 0x77, 0x68, 0x65, 0x72, 0x65, 0x20, 0x79, 0x6F, 0x75, 0x72, 0x20,
     0x73, 0x65, 0x63, 0x72, 0x65, 0x74] ++
    [0x20, 0x6D, 0x65, 0x73, 0x73, 0x61, 0x67, 0x65, 0x20, 0x77, 0x69, 0x6C, 0x6C, 0x20, 0x62, 0x65, 0x21])
    = 2882656334 ∧
  crcFeed 0xFFFFFFFF [0x52, 0x75, 0x53, 0x74] = 0x2B7BF6C3 ∧
  crc32 [0x31, 0x32, 0x33, 0x34, 0x35, 0x36, 0x37, 0x38, 0x39] = 0xCBF43926

/-- R104, R105: `CRC_CALC` is the CRC-32 of the bytes fed since the accumulator was last set to 0xFFFFFFFF, right after
reset and, if it is before a step, after it; the bytes a step feeds are those of R105's table (`fedAfter`). -/
def Obligations.CrcCalcIsCrcOfBytesFed : Prop :=
  State.reset.block.read 7 = crc32 [] ∧ crc32 [] = 0 ∧
  ∀ (s t : State) (fed : List Byte), s.block.read 7 = crc32 fed → step s = .next t →
    t.block.read 7 = crc32 (fedAfter s fed)

/-- R109: changing one byte of a string changes its CRC-32, whatever the string and the two values of the byte. -/
def Obligations.CrcDetectsOneByteChange : Prop :=
  ∀ (before after : List Byte) (d e : Byte), d ≠ e → crc32 (before ++ d :: after) ≠ crc32 (before ++ e :: after)

/-! ## Whole commands -/

/-- `n` offers are `n` steps: the statements about `feed` below reach a run through this one. -/
def Obligations.FeedIsARunOfSteps : Prop :=
  ∀ (n : Nat) (s : State) (more : List Event),
    runSteps n { s with inputs := List.replicate n .offer ++ more } = .next { s.feed n with inputs := more }

/-- R132: VERIFY on whatever bytes the source has. `F` is the frame's size, 12 + length field. -/
def Obligations.VerifyWholeFrame : Prop :=
  ∀ (s t : State) (ign : BitVec 28), s.block.busy = false → exec (.verify ign) s = .next t →
    ∀ (bytes : List Byte) (L F : Nat) (r : State),
      bytes = s.source.map Beat.data → L = (be32Of bytes).toNat → F = 12 + L → r = t.feed s.source.length →
      (∀ e, firstLast s.source = some e → e ≤ 3 ∨ e < F - 1 →
        r.source = s.source.drop (e + 1) ∧ r.block.state = .error ∧ r.block.err = 2) ∧
      (F ≤ s.source.length → (∀ x ∈ s.source.take (F - 1), x.last = false) →
        r.source = s.source.drop F ∧ r.block.len.toNat = L ∧ r.block.type = be32Of (bytes.drop 4) ∧
        r.block.read 7 = crc32 ((bytes.drop 4).take (4 + L)) ∧ r.block.crcRx = be32Of (bytes.drop (F - 4)) ∧
        (r.block.eob = true ↔ firstLast s.source = some (F - 1)) ∧
        (r.block.crcRx = r.block.read 7 → r.block.state = .done ∧ r.block.err = 0) ∧
        (r.block.crcRx ≠ r.block.read 7 → r.block.state = .error ∧ r.block.err = 3)) ∧
      (s.source.length < F → firstLast s.source = none → r.source = [] ∧ r.block.busy = true)

/-- R137's whole-slice statement of VERIFYS, in its three cases by the number `n` of bytes up to the first `in_last`, and
the slice that goes on with no `in_last`. -/
def Obligations.VerifysWholeSlice : Prop :=
  ∀ (s t : State) (ign : BitVec 28), s.block.busy = false → exec (.verifys ign) s = .next t →
    ∀ (bytes : List Byte) (r : State), bytes = s.source.map Beat.data → r = t.feed s.source.length →
      (∀ n, firstLast s.source = some (n - 1) → 1 ≤ n → n < 8 →
        r.source = s.source.drop n ∧ r.block.state = .error ∧ r.block.err = 2 ∧ r.block.cnt.toNat = n) ∧
      (∀ n, firstLast s.source = some (n - 1) → 8 ≤ n → n ≤ 0xFFFFFFFF + 8 →
        r.source = s.source.drop n ∧ r.block.type = be32Of bytes ∧ r.block.len.toNat = n - 8 ∧
        r.block.read 7 = crc32 (bytes.take (n - 4)) ∧ r.block.crcRx = be32Of (bytes.drop (n - 4)) ∧
        r.block.cnt = 8 ∧ r.block.eob = true ∧
        (r.block.crcRx = r.block.read 7 → r.block.state = .done ∧ r.block.err = 0) ∧
        (r.block.crcRx ≠ r.block.read 7 → r.block.state = .error ∧ r.block.err = 3)) ∧
      (2 ^ 32 + 8 ≤ s.source.length → (∀ x ∈ s.source.take (2 ^ 32 + 7), x.last = false) →
        r.source = s.source.drop (2 ^ 32 + 8) ∧ r.block.state = .error ∧ r.block.err = 8) ∧
      (s.source.length < 2 ^ 32 + 8 → firstLast s.source = none → r.source = [] ∧ r.block.busy = true)

/-- R137's last sentence: VERIFYS on a slice and VERIFY on length ‖ slice, with the right length, give the same `LEN`,
`TYPE`, `PROPS`, `CRC_CALC`, `CRC_RX` and outcome; they differ in `OP` and `CNT`. -/
def Obligations.SliceAndFrameAgree : Prop :=
  ∀ (s : State) (type crc : Word) (payload : List Byte), s.block.busy = false → payload.length ≤ 0xFFFFFFFF →
    ∃ f g : State,
      exec (.verify 0) { s with source := markLast (frameOf (BitVec.ofNat 32 payload.length) type payload crc) } = .next f ∧
      exec (.verifys 0) { s with source := markLast (sliceOf type payload crc) } = .next g ∧
      ∀ v w : Block, v = (f.feed f.source.length).block → w = (g.feed g.source.length).block →
        v.len = w.len ∧ v.type = w.type ∧ v.read 6 = w.read 6 ∧ v.crc = w.crc ∧ v.crcRx = w.crcRx ∧
        v.state = w.state ∧ v.err = w.err ∧ (v.state = .done ∨ (v.state = .error ∧ v.err = 3)) ∧
        v.op = 1 ∧ w.op = 2 ∧ v.cnt = 4 ∧ w.cnt = 8 ∧ w.eob = true

/-- R115 to R118: GEN on whatever bytes the source has, by the number `n` of bytes up to the first `in_last`. -/
def Obligations.GenWholeInput : Prop :=
  ∀ (s t : State) (ign : BitVec 28), s.block.busy = false → exec (.gen ign) s = .next t →
    ∀ (bytes : List Byte) (r : State), bytes = s.source.map Beat.data → r = t.feed s.source.length →
      (∀ n, firstLast s.source = some (n - 1) → 1 ≤ n → n < 4 →
        r.source = s.source.drop n ∧ r.block.state = .error ∧ r.block.err = 2 ∧ r.block.cnt.toNat = n ∧
        r.block.type.toNat = (bytes.take n).foldl (fun acc d => acc * 256 + d.toNat) 0 ∧
        r.block.read 7 = crc32 (bytes.take n) ∧ r.block.len = 0 ∧ r.block.eob = true) ∧
      (∀ n, firstLast s.source = some (n - 1) → 4 ≤ n → n ≤ 0xFFFFFFFF + 4 →
        r.source = s.source.drop n ∧ r.block.state = .done ∧ r.block.type = be32Of bytes ∧
        r.block.len.toNat = n - 4 ∧ r.block.read 7 = crc32 (bytes.take n) ∧ r.block.crcRx = 0 ∧ r.block.cnt = 4 ∧
        r.block.eob = true ∧ r.block.err = 0) ∧
      (2 ^ 32 + 4 ≤ s.source.length → (∀ x ∈ s.source.take (2 ^ 32 + 3), x.last = false) →
        r.source = s.source.drop (2 ^ 32 + 4) ∧ r.block.state = .error ∧ r.block.err = 8 ∧
        r.block.len = 0xFFFFFFFF ∧ r.block.read 7 = crc32 (bytes.take (2 ^ 32 + 3)) ∧
        r.block.type = be32Of bytes ∧ r.block.cnt = 4 ∧
        (r.block.eob = true ↔ firstLast s.source = some (2 ^ 32 + 3))) ∧
      (s.source.length < 2 ^ 32 + 4 → firstLast s.source = none → r.source = [] ∧ r.block.busy = true)

/-- R65, R93, R95: LABEL on whatever bytes the source has: the length is checked first, then the letters
(R80's ranges). -/
def Obligations.LabelWholeInput : Prop :=
  ∀ (s t : State) (ign : BitVec 28), s.block.busy = false → exec (.label ign) s = .next t →
    ∀ (bytes : List Byte) (r : State), bytes = s.source.map Beat.data → r = t.feed s.source.length →
      (∀ e, firstLast s.source = some e →
        r.source = s.source.drop (e + 1) ∧ r.block.eob = true ∧ r.block.crc = 0xFFFFFFFF ∧ r.block.crcRx = 0 ∧
        r.block.len = 0 ∧
        (e + 1 ≠ 4 → r.block.state = .error ∧ r.block.err = 4) ∧
        (e + 1 = 4 → r.block.type = be32Of bytes ∧ r.block.cnt = 4 ∧
          ((∀ d ∈ bytes.take 4, (0x41 ≤ d.toNat ∧ d.toNat ≤ 0x5A) ∨ (0x61 ≤ d.toNat ∧ d.toNat ≤ 0x7A)) →
            r.block.state = .done ∧ r.block.err = 0) ∧
          ((∃ d ∈ bytes.take 4, ¬((0x41 ≤ d.toNat ∧ d.toNat ≤ 0x5A) ∨ (0x61 ≤ d.toNat ∧ d.toNat ≤ 0x7A))) →
            r.block.state = .error ∧ r.block.err = 5))) ∧
      (firstLast s.source = none → r.source = [] ∧ r.block.busy = true)

/-- R155, R156: DRAIN discards every byte up to and including the first `in_last`, and ends in DONE with every data
register 0. With no `in_last` it discards every byte and goes on waiting, BUSY, its registers 0 (R206). -/
def Obligations.DrainWholeBuffer : Prop :=
  ∀ (s t : State) (ign : BitVec 28), s.block.busy = false → exec (.drain ign) s = .next t →
    ∀ r : State, r = t.feed s.source.length →
      (r.block.op = 5 ∧ r.block.len = 0 ∧ r.block.type = 0 ∧ r.block.crcRx = 0 ∧ r.block.cnt = 0 ∧
        r.block.read 7 = 0 ∧ r.block.err = 0) ∧
      (∀ e, firstLast s.source = some e →
        r.source = s.source.drop (e + 1) ∧ r.block.state = .done ∧ r.block.eob = true) ∧
      (firstLast s.source = none →
        r.source = [] ∧ r.block.state = .drainr ∧ r.block.busy = true ∧ r.block.eob = false)

/-- R139: VERIFY on a frame and VERIFYS on its slice end in DONE if and only if the checksum field equals
`crc32(type ‖ payload)`; with one type or payload byte changed they end in ERROR with `ERR` = 3. -/
def Obligations.ChecksumIntegrity : Prop :=
  ∀ (s : State) (type crc : Word) (payload : List Byte), s.block.busy = false → payload.length ≤ 0xFFFFFFFF →
    ∃ f g : State,
      exec (.verify 0) { s with source := markLast (frameOf (BitVec.ofNat 32 payload.length) type payload crc) } = .next f ∧
      exec (.verifys 0) { s with source := markLast (sliceOf type payload crc) } = .next g ∧
      ((f.feed f.source.length).block.state = .done ↔ crc = crc32 (bytesOf type ++ payload)) ∧
      ((g.feed g.source.length).block.state = .done ↔ crc = crc32 (bytesOf type ++ payload)) ∧
      ∀ (type' : Word) (payload' : List Byte) (before after : List Byte) (d e : Byte),
        crc = crc32 (bytesOf type' ++ payload') → payload'.length = payload.length →
        bytesOf type' ++ payload' = before ++ d :: after → bytesOf type ++ payload = before ++ e :: after → d ≠ e →
        (f.feed f.source.length).block.state = .error ∧ (f.feed f.source.length).block.err = 3 ∧
        (g.feed g.source.length).block.state = .error ∧ (g.feed g.source.length).block.err = 3

/-- R62, R119, R140: GEN on type and payload ends in DONE; the frame a host builds from its registers is accepted by
VERIFY, which ends in DONE with the same `LEN`, `TYPE` and `CRC_CALC`. -/
def Obligations.GenSerializeVerifyRoundTrip : Prop :=
  ∀ (s : State) (type : Word) (payload : List Byte), s.block.busy = false → payload.length ≤ 0xFFFFFFFF →
    ∃ g h : State, ∃ f : State,
      exec (.gen 0) { s with source := markLast (genInput type payload) } = .next g ∧
      h = g.feed g.source.length ∧ h.block.hasResult = true ∧ h.block.type = type ∧
      h.block.len.toNat = payload.length ∧
      exec (.verify 0) { h with source := markLast (serialize h.block payload) } = .next f ∧
      (f.feed f.source.length).block.hasResult = true ∧ (f.feed f.source.length).source = [] ∧
      (f.feed f.source.length).block.record = h.block.record

/-- R133: a buffer of one or more good frames, parsed by the host's loop of VERIFY commands, gives the records in
order. -/
def Obligations.BufferOfFramesParsedInOrder : Prop :=
  ∀ (s : State) (recs : List (Word × List Byte)), s.block.busy = false → recs ≠ [] →
    (∀ r ∈ recs, r.2.length ≤ 0xFFFFFFFF) →
    s.source = markLast (recs.flatMap fun r =>
      frameOf (BitVec.ofNat 32 r.2.length) r.1 r.2 (crc32 (bytesOf r.1 ++ r.2))) →
    verifyAll recs.length [] s = .records (recs.map fun r =>
      ⟨BitVec.ofNat 32 r.2.length, r.1, crc32 (bytesOf r.1 ++ r.2)⟩)

/-! ## The clock cycle (20_memory.md R48) -/

/-- R48: a clock cycle is the sequence of its events in the order read, write, beat (reset alone), so a run of steps
over those events does the same; a stream command written in a cycle in which a byte is offered consumes it in the same
cycle, and a CLEAR leaves it unconsumed. -/
def Obligations.ClockCycleIsItsEventsInOrder : Prop :=
  (∀ p : Pins, p.events = if p.rst then [.reset] else
    (if p.regRe then [.regRead p.regAddr] else []) ++ (if p.regWe then [.regWrite p.regAddr p.regWdata] else [])
      ++ (if p.inValid then [.offer] else [])) ∧
  (∀ (p : Pins) (s : State), runSteps p.events.length { s with inputs := p.events ++ s.inputs } = clockCycle p s) ∧
  (∀ (p : Pins) (s : State) (byte : Beat) (rest : List Beat), p.rst = false → p.regWe = true → p.inValid = true →
    p.regAddr = 0 → s.source = byte :: rest →
    (1 ≤ (opcodeOf p.regWdata).toNat → (opcodeOf p.regWdata).toNat ≤ 5 → s.block.busy = false →
      ∃ t, clockCycle p s = .next t ∧ t.source = rest ∧ t.block.op = opcodeOf p.regWdata ∧ t.block.eob = byte.last) ∧
    ((opcodeOf p.regWdata).toNat = 6 → ∃ t, clockCycle p s = .next t ∧ t.source = s.source ∧ t.block.state = .idle))

/-- R41: with `reg_we` and `reg_re` both 1 the read is performed first and returns the value before the write. -/
def Obligations.ReadBeforeWriteInOneCycle : Prop :=
  ∀ (p : Pins) (s : State), p.rst = false → p.regRe = true →
    cycleRdata p s = some (s.block.read p.regAddr) ∧
    ∃ t, clockCycle p s = .next t ∧ t.returned = s.block.read p.regAddr :: s.returned

/-! ## Encoding (30_encoding.md R66, R67, R76) -/

/-- Decoding an encoded instruction gives it back, for every instruction and every operand. -/
def Obligations.DecodeOfEncode : Prop :=
  ∀ i : Instr, decodeWrite (encode i).1 (encode i).2 = .instr i

/-- A write that decodes to an instruction is that instruction's encoding: no word has two readings and no bit is
dropped. The writes that do not are the reserved opcodes (R68) and the read-only and unmapped indices (R36). -/
def Obligations.EncodeOfDecode : Prop :=
  ∀ (i : RegIndex) (v : Word),
    (∀ ins, decodeWrite i v = .instr ins → encode ins = (i, v)) ∧
    ((∀ ins, decodeWrite i v ≠ .instr ins) ↔ (i = 0 ∧ 7 ≤ (opcodeOf v).toNat) ∨ (i ≠ 0 ∧ i ≠ 1 ∧ i ≠ 5))

/-- R67: words written out bit by bit from the opcode map decode to what they stand for. -/
def Obligations.TableWordsDecode : Prop :=
  decodeTableWord 32 0x00000000 = some (.nop 0) ∧ decodeTableWord 32 0x00000001 = some (.verify 0) ∧
  decodeTableWord 32 0x00000002 = some (.verifys 0) ∧ decodeTableWord 32 0x00000003 = some (.gen 0) ∧
  decodeTableWord 32 0x00000004 = some (.label 0) ∧ decodeTableWord 32 0x00000005 = some (.drain 0) ∧
  decodeTableWord 32 0x00000006 = some (.clear 0) ∧ decodeTableWord 32 0xABCDEF03 = some (.gen 0xABCDEF0) ∧
  decodeTableWord 8 0x1 = some (.wrCtrl false false 0) ∧ decodeTableWord 8 0x5 = some (.wrType 0 0 0 0) ∧
  decodeWrite 5 0x52755374 = .instr (.wrType 0x52 0x75 0x53 0x74) ∧
  decodeWrite 1 0x00000002 = .instr (.wrCtrl false true 0) ∧ decodeTableWord 32 0x00000007 = none

/-- A step runs the decoded instruction: when the next input is a register write that decodes to `i`, the step is
`exec i` on the state with that input taken. -/
def Obligations.StepRunsDecodedInstruction : Prop :=
  ∀ (s : State) (idx : RegIndex) (v : Word) (i : Instr) (more : List Event),
    s.inputs = .regWrite idx v :: more → decodeWrite idx v = .instr i →
    step s = exec i { s with inputs := more }
end

