-- ==== Sys2Proof/Laws/State.lean ====
section
/-! SUPPORT. What each record update of the state leaves in each field, so that no later proof unfolds one. -/

namespace Sys2Proof.Machine

/-! ## Updates of `State` -/

@[simp] theorem State.onBlock_inputs (g : Block → Block) (s : State) : (s.onBlock g).inputs = s.inputs := rfl
@[simp] theorem State.onBlock_source (g : Block → Block) (s : State) : (s.onBlock g).source = s.source := rfl
@[simp] theorem State.onBlock_returned (g : Block → Block) (s : State) : (s.onBlock g).returned = s.returned := rfl
@[simp] theorem State.onBlock_block (g : Block → Block) (s : State) : (s.onBlock g).block = g s.block := rfl
@[simp] theorem State.readReg_block (i : RegIndex) (s : State) : (s.readReg i).block = s.block := rfl
@[simp] theorem State.readReg_inputs (i : RegIndex) (s : State) : (s.readReg i).inputs = s.inputs := rfl
@[simp] theorem State.readReg_source (i : RegIndex) (s : State) : (s.readReg i).source = s.source := rfl
@[simp] theorem State.readReg_returned (i : RegIndex) (s : State) :
    (s.readReg i).returned = s.block.read i :: s.returned := rfl
@[simp] theorem State.withWrite_block (i : RegIndex) (v : Word) (s : State) : (s.withWrite i v).block = s.block := rfl
@[simp] theorem State.withWrite_source (i : RegIndex) (v : Word) (s : State) : (s.withWrite i v).source = s.source := rfl
@[simp] theorem State.withWrite_returned (i : RegIndex) (v : Word) (s : State) : (s.withWrite i v).returned = s.returned := rfl
@[simp] theorem State.withWrite_inputs (i : RegIndex) (v : Word) (s : State) :
    (s.withWrite i v).inputs = .regWrite i v :: s.inputs := rfl

/-! ## `Block.refuse` -/

@[simp] theorem Block.refuse_state (b : Block) : (b.refuse).state = b.state := rfl
@[simp] theorem Block.refuse_op (b : Block) : (b.refuse).op = b.op := rfl
@[simp] theorem Block.refuse_len (b : Block) : (b.refuse).len = b.len := rfl
@[simp] theorem Block.refuse_type (b : Block) : (b.refuse).type = b.type := rfl
@[simp] theorem Block.refuse_crc (b : Block) : (b.refuse).crc = b.crc := rfl
@[simp] theorem Block.refuse_crcRx (b : Block) : (b.refuse).crcRx = b.crcRx := rfl
@[simp] theorem Block.refuse_cnt (b : Block) : (b.refuse).cnt = b.cnt := rfl
@[simp] theorem Block.refuse_err (b : Block) : (b.refuse).err = b.err := rfl
@[simp] theorem Block.refuse_eob (b : Block) : (b.refuse).eob = b.eob := rfl
@[simp] theorem Block.refuse_cmderr (b : Block) : (b.refuse).cmderr = true := rfl
@[simp] theorem Block.refuse_ieDone (b : Block) : (b.refuse).ieDone = b.ieDone := rfl
@[simp] theorem Block.refuse_ieErr (b : Block) : (b.refuse).ieErr = b.ieErr := rfl

/-! ## `Block.raise` -/

@[simp] theorem Block.raise_state (e : ErrName) (b : Block) : (b.raise e).state = .error := rfl
@[simp] theorem Block.raise_op (e : ErrName) (b : Block) : (b.raise e).op = b.op := rfl
@[simp] theorem Block.raise_len (e : ErrName) (b : Block) : (b.raise e).len = b.len := rfl
@[simp] theorem Block.raise_type (e : ErrName) (b : Block) : (b.raise e).type = b.type := rfl
@[simp] theorem Block.raise_crc (e : ErrName) (b : Block) : (b.raise e).crc = b.crc := rfl
@[simp] theorem Block.raise_crcRx (e : ErrName) (b : Block) : (b.raise e).crcRx = b.crcRx := rfl
@[simp] theorem Block.raise_cnt (e : ErrName) (b : Block) : (b.raise e).cnt = b.cnt := rfl
@[simp] theorem Block.raise_err (e : ErrName) (b : Block) : (b.raise e).err = e.code := rfl
@[simp] theorem Block.raise_eob (e : ErrName) (b : Block) : (b.raise e).eob = b.eob := rfl
@[simp] theorem Block.raise_cmderr (e : ErrName) (b : Block) : (b.raise e).cmderr = b.cmderr := rfl
@[simp] theorem Block.raise_ieDone (e : ErrName) (b : Block) : (b.raise e).ieDone = b.ieDone := rfl
@[simp] theorem Block.raise_ieErr (e : ErrName) (b : Block) : (b.raise e).ieErr = b.ieErr := rfl

/-! ## `Block.forget` -/

@[simp] theorem Block.forget_state (b : Block) : (b.forget).state = b.state := rfl
@[simp] theorem Block.forget_op (b : Block) : (b.forget).op = b.op := rfl
@[simp] theorem Block.forget_len (b : Block) : (b.forget).len = 0 := rfl
@[simp] theorem Block.forget_type (b : Block) : (b.forget).type = 0 := rfl
@[simp] theorem Block.forget_crc (b : Block) : (b.forget).crc = crcInit := rfl
@[simp] theorem Block.forget_crcRx (b : Block) : (b.forget).crcRx = 0 := rfl
@[simp] theorem Block.forget_cnt (b : Block) : (b.forget).cnt = 0 := rfl
@[simp] theorem Block.forget_err (b : Block) : (b.forget).err = 0 := rfl
@[simp] theorem Block.forget_eob (b : Block) : (b.forget).eob = false := rfl
@[simp] theorem Block.forget_cmderr (b : Block) : (b.forget).cmderr = b.cmderr := rfl
@[simp] theorem Block.forget_ieDone (b : Block) : (b.forget).ieDone = b.ieDone := rfl
@[simp] theorem Block.forget_ieErr (b : Block) : (b.forget).ieErr = b.ieErr := rfl

/-! ## `Block.clear` -/

@[simp] theorem Block.clear_state (b : Block) : (b.clear).state = .idle := rfl
@[simp] theorem Block.clear_op (b : Block) : (b.clear).op = 0 := rfl
@[simp] theorem Block.clear_len (b : Block) : (b.clear).len = 0 := rfl
@[simp] theorem Block.clear_type (b : Block) : (b.clear).type = 0 := rfl
@[simp] theorem Block.clear_crc (b : Block) : (b.clear).crc = crcInit := rfl
@[simp] theorem Block.clear_crcRx (b : Block) : (b.clear).crcRx = 0 := rfl
@[simp] theorem Block.clear_cnt (b : Block) : (b.clear).cnt = 0 := rfl
@[simp] theorem Block.clear_err (b : Block) : (b.clear).err = 0 := rfl
@[simp] theorem Block.clear_eob (b : Block) : (b.clear).eob = false := rfl
@[simp] theorem Block.clear_cmderr (b : Block) : (b.clear).cmderr = false := rfl
@[simp] theorem Block.clear_ieDone (b : Block) : (b.clear).ieDone = b.ieDone := rfl
@[simp] theorem Block.clear_ieErr (b : Block) : (b.clear).ieErr = b.ieErr := rfl

/-! ## `Block.resetAll` -/

@[simp] theorem Block.resetAll_state (b : Block) : (b.resetAll).state = .idle := rfl
@[simp] theorem Block.resetAll_op (b : Block) : (b.resetAll).op = 0 := rfl
@[simp] theorem Block.resetAll_len (b : Block) : (b.resetAll).len = 0 := rfl
@[simp] theorem Block.resetAll_type (b : Block) : (b.resetAll).type = 0 := rfl
@[simp] theorem Block.resetAll_crc (b : Block) : (b.resetAll).crc = crcInit := rfl
@[simp] theorem Block.resetAll_crcRx (b : Block) : (b.resetAll).crcRx = 0 := rfl
@[simp] theorem Block.resetAll_cnt (b : Block) : (b.resetAll).cnt = 0 := rfl
@[simp] theorem Block.resetAll_err (b : Block) : (b.resetAll).err = 0 := rfl
@[simp] theorem Block.resetAll_eob (b : Block) : (b.resetAll).eob = false := rfl
@[simp] theorem Block.resetAll_cmderr (b : Block) : (b.resetAll).cmderr = false := rfl
@[simp] theorem Block.resetAll_ieDone (b : Block) : (b.resetAll).ieDone = false := rfl
@[simp] theorem Block.resetAll_ieErr (b : Block) : (b.resetAll).ieErr = false := rfl

/-! ## `Block.writeCtrl` -/

@[simp] theorem Block.writeCtrl_state (d e : Bool) (b : Block) : (b.writeCtrl d e).state = b.state := rfl
@[simp] theorem Block.writeCtrl_op (d e : Bool) (b : Block) : (b.writeCtrl d e).op = b.op := rfl
@[simp] theorem Block.writeCtrl_len (d e : Bool) (b : Block) : (b.writeCtrl d e).len = b.len := rfl
@[simp] theorem Block.writeCtrl_type (d e : Bool) (b : Block) : (b.writeCtrl d e).type = b.type := rfl
@[simp] theorem Block.writeCtrl_crc (d e : Bool) (b : Block) : (b.writeCtrl d e).crc = b.crc := rfl
@[simp] theorem Block.writeCtrl_crcRx (d e : Bool) (b : Block) : (b.writeCtrl d e).crcRx = b.crcRx := rfl
@[simp] theorem Block.writeCtrl_cnt (d e : Bool) (b : Block) : (b.writeCtrl d e).cnt = b.cnt := rfl
@[simp] theorem Block.writeCtrl_err (d e : Bool) (b : Block) : (b.writeCtrl d e).err = b.err := rfl
@[simp] theorem Block.writeCtrl_eob (d e : Bool) (b : Block) : (b.writeCtrl d e).eob = b.eob := rfl
@[simp] theorem Block.writeCtrl_cmderr (d e : Bool) (b : Block) : (b.writeCtrl d e).cmderr = b.cmderr := rfl
@[simp] theorem Block.writeCtrl_ieDone (d e : Bool) (b : Block) : (b.writeCtrl d e).ieDone = d := rfl
@[simp] theorem Block.writeCtrl_ieErr (d e : Bool) (b : Block) : (b.writeCtrl d e).ieErr = e := rfl

/-- `Reset` leaves the values of reset, whatever was there (70_reset_and_hazards.md R200). -/
@[simp] theorem Block.resetAll_eq (b : Block) : b.resetAll = Block.afterReset := rfl

end Sys2Proof.Machine
end

