-- ==== Sys2Proof/Laws/Exec.lean ====
section
/-! SUPPORT. One lemma for each shared operation, for `exec`, for an event and for a step: what each can do, said once. -/

namespace Sys2Proof.Machine

/-! ## The shared operations -/

theorem Block.startStream_of_not_busy (c : StreamCmd) {b : Block} (h : b.busy = false) :
    b.startStream c = { b.forget with op := c.opcode, state := c.entry } := by
  simp [Block.startStream, h]

theorem Block.startStream_of_busy (c : StreamCmd) {b : Block} (h : b.busy = true) : b.startStream c = b.refuse := by
  simp [Block.startStream, h]

theorem Block.writeType_of_not_busy (v : Word) {b : Block} (h : b.busy = false) :
    b.writeType v = { b with type := v } := by
  simp [Block.writeType, h]

theorem Block.writeType_of_busy (v : Word) {b : Block} (h : b.busy = true) : b.writeType v = b.refuse := by
  simp [Block.writeType, h]

/-! ## The meanings -/

@[simp] theorem exec_nop (ign : BitVec 28) (s : State) : exec (.nop ign) s = .next s := rfl
@[simp] theorem exec_verify (ign : BitVec 28) (s : State) :
    exec (.verify ign) s = .next (s.onBlock (Block.startStream .verify)) := rfl
@[simp] theorem exec_verifys (ign : BitVec 28) (s : State) :
    exec (.verifys ign) s = .next (s.onBlock (Block.startStream .verifys)) := rfl
@[simp] theorem exec_gen (ign : BitVec 28) (s : State) :
    exec (.gen ign) s = .next (s.onBlock (Block.startStream .gen)) := rfl
@[simp] theorem exec_label (ign : BitVec 28) (s : State) :
    exec (.label ign) s = .next (s.onBlock (Block.startStream .label)) := rfl
@[simp] theorem exec_drain (ign : BitVec 28) (s : State) :
    exec (.drain ign) s = .next (s.onBlock (Block.startStream .drain)) := rfl
@[simp] theorem exec_clear (ign : BitVec 28) (s : State) : exec (.clear ign) s = .next (s.onBlock Block.clear) := rfl
@[simp] theorem exec_wrCtrl (d e : Bool) (ign : BitVec 30) (s : State) :
    exec (.wrCtrl d e ign) s = .next (s.onBlock (Block.writeCtrl d e)) := rfl
@[simp] theorem exec_wrType (b0 b1 b2 b3 : Byte) (s : State) :
    exec (.wrType b0 b1 b2 b3) s = .next (s.onBlock (Block.writeType (be32 b0 b1 b2 b3))) := rfl

/-! ## Register writes -/

/-- What a write to `CMD` does to the block, by its opcode (30_encoding.md R67, R68). -/
def commandEffect (op : Code) (b : Block) : Block :=
  if op = 0 then b
  else if op = 1 then b.startStream .verify
  else if op = 2 then b.startStream .verifys
  else if op = 3 then b.startStream .gen
  else if op = 4 then b.startStream .label
  else if op = 5 then b.startStream .drain
  else if op = 6 then b.clear
  else b.refuse

/-- What a register write does to the block, by its index. -/
def writeEffect (i : RegIndex) (v : Word) (b : Block) : Block :=
  if i = 0 then commandEffect (opcodeOf v) b
  else if i = 1 then b.writeCtrl (v.getLsbD 0) (v.getLsbD 1)
  else if i = 5 then b.writeType v
  else b

/-- The state in which the stream command with a given opcode starts. -/
def entryOf (op : Code) : Seq :=
  if op = 1 then .lenf else if op = 2 then .slice else if op = 3 then .genr else if op = 4 then .labelr else .drainr

theorem opcode_cases (op : Code) : op = 0 ∨ (1 ≤ op.toNat ∧ op.toNat ≤ 5) ∨ op = 6 ∨ 7 ≤ op.toNat := by
  revert op
  decide

theorem streamOpcode_cases {op : Code} (h1 : 1 ≤ op.toNat) (h5 : op.toNat ≤ 5) :
    op = 1 ∨ op = 2 ∨ op = 3 ∨ op = 4 ∨ op = 5 := by
  revert op
  decide

theorem commandEffect_nop (b : Block) : commandEffect 0 b = b := rfl
theorem commandEffect_clear (b : Block) : commandEffect 6 b = b.clear := rfl

/-- `commandEffect_nop` as `simp` writes literals. -/
@[simp] theorem commandEffect_nop_lit (b : Block) : commandEffect 0#4 b = b := rfl
/-- `commandEffect_clear` as `simp` writes literals. -/
@[simp] theorem commandEffect_clear_lit (b : Block) : commandEffect 6#4 b = b.clear := rfl

theorem commandEffect_start {op : Code} {b : Block} (h1 : 1 ≤ op.toNat) (h5 : op.toNat ≤ 5) (h : b.busy = false) :
    commandEffect op b = { b.forget with op := op, state := entryOf op } := by
  rcases streamOpcode_cases h1 h5 with rfl | rfl | rfl | rfl | rfl <;>
    simp [commandEffect, Block.startStream, h, entryOf, StreamCmd.entry, StreamCmd.opcode, Opcode.verify,
      Opcode.verifys, Opcode.gen, Opcode.label, Opcode.drain]

theorem commandEffect_busy {op : Code} {b : Block} (h1 : 1 ≤ op.toNat) (h5 : op.toNat ≤ 5) (h : b.busy = true) :
    commandEffect op b = b.refuse := by
  rcases streamOpcode_cases h1 h5 with rfl | rfl | rfl | rfl | rfl <;> simp [commandEffect, Block.startStream, h]

theorem commandEffect_reserved {op : Code} (b : Block) (h : 7 ≤ op.toNat) : commandEffect op b = b.refuse := by
  have h : ¬op = 0 ∧ ¬op = 1 ∧ ¬op = 2 ∧ ¬op = 3 ∧ ¬op = 4 ∧ ¬op = 5 ∧ ¬op = 6 := by
    revert op
    decide
  simp only [commandEffect, h, if_false]

/-- A command that is neither CLEAR nor an accepted stream command changes `CMDERR` at most. -/
theorem commandEffect_idle {op : Code} {b : Block}
    (h : op.toNat = 0 ∨ 7 ≤ op.toNat ∨ (op.toNat ≠ 6 ∧ b.busy = true)) :
    commandEffect op b = { b with cmderr := (commandEffect op b).cmderr } := by
  rcases opcode_cases op with rfl | ⟨h1, h5⟩ | rfl | h7
  · rfl
  · have hb : b.busy = true := by
      rcases h with h | h | h
      · omega
      · omega
      · exact h.2
    rw [commandEffect_busy h1 h5 hb]
    rfl
  · simp at h
  · rw [commandEffect_reserved b h7]
    rfl

theorem writeEffect_cmd (v : Word) (b : Block) : writeEffect 0 v b = commandEffect (opcodeOf v) b := rfl
theorem writeEffect_ctrl (v : Word) (b : Block) : writeEffect 1 v b = b.writeCtrl (v.getLsbD 0) (v.getLsbD 1) := rfl
theorem writeEffect_type (v : Word) (b : Block) : writeEffect 5 v b = b.writeType v := rfl

/-- `writeEffect_cmd` as `simp` writes literals. -/
@[simp] theorem writeEffect_cmd_lit (v : Word) (b : Block) : writeEffect 0#4 v b = commandEffect (opcodeOf v) b := rfl
/-- `writeEffect_ctrl` as `simp` writes literals. -/
@[simp] theorem writeEffect_ctrl_lit (v : Word) (b : Block) :
    writeEffect 1#4 v b = b.writeCtrl (v.getLsbD 0) (v.getLsbD 1) := rfl
/-- `writeEffect_type` as `simp` writes literals. -/
@[simp] theorem writeEffect_type_lit (v : Word) (b : Block) : writeEffect 5#4 v b = b.writeType v := rfl

theorem writeEffect_other {i : RegIndex} (v : Word) (b : Block) (h0 : i ≠ 0) (h1 : i ≠ 1) (h5 : i ≠ 5) :
    writeEffect i v b = b := by
  simp only [writeEffect, h0, h1, h5, if_false]

/-- The four bytes of a word, put together again. -/
theorem be32_bytes (v : Word) : be32 (byte0 v) (byte1 v) (byte2 v) (byte3 v) = v := by
  unfold be32 byte0 byte1 byte2 byte3
  ext i hi
  simp
  grind

/-- A write to `CMD` always answers a next state, and its opcode alone says which. -/
theorem runWrite_cmd (v : Word) (s : State) : runWrite 0 v s = .next (s.onBlock (commandEffect (opcodeOf v))) := by
  simp only [runWrite, decodeWrite, Reg.cmd, decodeCommand, Opcode.nop, Opcode.verify, Opcode.verifys, Opcode.gen,
    Opcode.label, Opcode.drain, Opcode.clear, if_true]
  generalize opcodeOf v = op
  simp only [commandEffect, State.onBlock]
  repeat' split
  all_goals first | rfl | simp_all
  all_goals subst_vars; rfl

/-- Every register write answers a next state, in which only the block can have changed. -/
theorem runWrite_eq (i : RegIndex) (v : Word) (s : State) : runWrite i v s = .next (s.onBlock (writeEffect i v)) := by
  by_cases h0 : i = 0
  · subst h0
    rw [runWrite_cmd]
    rfl
  · by_cases h1 : i = 1
    · subst h1
      rfl
    · by_cases h5 : i = 5
      · subst h5
        simp [runWrite, decodeWrite, Reg.cmd, Reg.ctrl, Reg.type, be32_bytes, State.onBlock, writeEffect]
      · unfold runWrite decodeWrite State.onBlock writeEffect
        rw [if_neg (show ¬ i = Reg.cmd from h0), if_neg (show ¬ i = Reg.ctrl from h1),
          if_neg (show ¬ i = Reg.type from h5), if_neg h0, if_neg h1, if_neg h5]

/-! ## Offers -/

theorem State.takeOffer_of_nil {s : State} (h : s.source = []) : s.takeOffer = s := by
  simp [State.takeOffer, h]

theorem State.takeOffer_of_not_busy {s : State} (h : s.block.busy = false) : s.takeOffer = s := by
  unfold State.takeOffer
  split <;> simp [Block.inReady, h]

theorem State.takeOffer_of_busy {s : State} {x : Beat} {rest : List Beat} (h : s.block.busy = true)
    (hs : s.source = x :: rest) :
    s.takeOffer = { s with block := s.block.beat x.data x.last, source := rest } := by
  simp [State.takeOffer, hs, Block.inReady, h]

@[simp] theorem State.takeOffer_inputs (s : State) : s.takeOffer.inputs = s.inputs := by
  unfold State.takeOffer
  repeat' split
  all_goals rfl

@[simp] theorem State.takeOffer_returned (s : State) : s.takeOffer.returned = s.returned := by
  unfold State.takeOffer
  repeat' split
  all_goals rfl

/-! ## Events and steps -/

/-- The state after an event. -/
def eventEffect (e : Event) (s : State) : State :=
  match e with
  | .reset => s.onBlock Block.resetAll
  | .regRead i => s.readReg i
  | .regWrite i v => s.onBlock (writeEffect i v)
  | .offer => s.takeOffer

/-- Every event answers a next state: nothing stops this machine. -/
theorem runEvent_eq (e : Event) (s : State) : runEvent e s = .next (eventEffect e s) := by
  cases e
  case regWrite i v => exact runWrite_eq i v s
  all_goals rfl

theorem step_of_nil {s : State} (h : s.inputs = []) : step s = .next s := by
  simp [step, State.takeInput, h]

theorem step_of_cons {s : State} {e : Event} {more : List Event} (h : s.inputs = e :: more) :
    step s = .next (eventEffect e { s with inputs := more }) := by
  simp [step, State.takeInput, h, runEvent_eq]

/-- What a step can do: nothing, with no input left, or its next event. -/
theorem step_cases {s t : State} (h : step s = .next t) :
    (s.inputs = [] ∧ t = s) ∨ ∃ e more, s.inputs = e :: more ∧ t = eventEffect e { s with inputs := more } := by
  cases hi : s.inputs with
  | nil =>
    rw [step_of_nil hi] at h
    injection h with h
    exact .inl ⟨rfl, h.symm⟩
  | cons e more =>
    rw [step_of_cons hi] at h
    injection h with h
    exact .inr ⟨e, more, rfl, h.symm⟩

@[simp] theorem eventEffect_inputs (e : Event) (s : State) : (eventEffect e s).inputs = s.inputs := by
  cases e <;> simp [eventEffect]

theorem runSteps_zero (s : State) : runSteps 0 s = .next s := rfl

theorem runSteps_succ (k : Nat) {s t : State} (h : step s = .next t) : runSteps (k + 1) s = runSteps k t := by
  have hc : Sys2Proof.core.step s = .next t := h
  simp only [runSteps, Host.Core.run, hc]
  rfl

/-- A property that the state after reset has, with any environment, and that every step keeps, holds after any number
of steps. -/
theorem runSteps_invariant {P : State → Prop} (hstep : ∀ s t, P s → step s = .next t → P t) :
    ∀ (k : Nat) (s t : State), P s → runSteps k s = .next t → P t := by
  intro k
  induction k with
  | zero =>
    intro s t hs h
    rw [runSteps_zero] at h
    injection h with h
    exact h ▸ hs
  | succ k ih =>
    intro s t hs h
    cases hi : s.inputs with
    | nil =>
      rw [runSteps_succ k (step_of_nil hi)] at h
      exact ih s t hs h
    | cons e more =>
      rw [runSteps_succ k (step_of_cons hi)] at h
      exact ih _ t (hstep _ _ hs (step_of_cons hi)) h

theorem runEvents_cons (e : Event) (rest : List Event) (s : State) :
    runEvents (e :: rest) s = runEvents rest (eventEffect e s) := by
  simp [runEvents, runEvent_eq]

/-- A run of events answers a next state: the effects one after another. -/
theorem runEvents_eq (es : List Event) (s : State) :
    runEvents es s = .next (es.foldl (fun s e => eventEffect e s) s) := by
  induction es generalizing s with
  | nil => rfl
  | cons e rest ih => rw [runEvents_cons, ih]; rfl

end Sys2Proof.Machine
end

