-- ==== Sys2Proof/Laws/Beat.lean ====
section
/-! SUPPORT. Beats and feeding: a beat does nothing where it cannot happen, and what feeding a string does to the block
and to the source. -/

namespace Sys2Proof.Machine

theorem Block.beat_of_not_busy {b : Block} (h : b.busy = false) (d : Byte) (l : Bool) : b.beat d l = b := by
  unfold Block.beat
  unfold Block.busy at h
  split <;> simp_all [Seq.busy]

/-- What no beat touches, and what a beat taken while BUSY leaves in `EOB`. -/
theorem Block.beat_frame (d : Byte) (l : Bool) (b : Block) :
    (b.beat d l).op = b.op ∧ (b.beat d l).cmderr = b.cmderr ∧ (b.beat d l).ieDone = b.ieDone ∧
      (b.beat d l).ieErr = b.ieErr ∧ (b.beat d l).eob = if b.busy then l else b.eob := by
  obtain ⟨st, op, len, type, crc, crcRx, cnt, err, eob, ce, i1, i2⟩ := b
  cases st
  all_goals
    simp only [Block.beat, Block.beatLenf, Block.beatTypef, Block.beatPayld, Block.beatCrcf, Block.beatSlice,
      Block.beatGenr, Block.beatLabelr, Block.beatDrainr, Block.compareChecksum, Block.releaseOldest, Block.raise,
      Block.busy, Seq.busy]
    grind

@[simp] theorem Block.beat_op (d : Byte) (l : Bool) (b : Block) : (b.beat d l).op = b.op := (b.beat_frame d l).1
@[simp] theorem Block.beat_cmderr (d : Byte) (l : Bool) (b : Block) : (b.beat d l).cmderr = b.cmderr :=
  (b.beat_frame d l).2.1
@[simp] theorem Block.beat_ieDone (d : Byte) (l : Bool) (b : Block) : (b.beat d l).ieDone = b.ieDone :=
  (b.beat_frame d l).2.2.1
@[simp] theorem Block.beat_ieErr (d : Byte) (l : Bool) (b : Block) : (b.beat d l).ieErr = b.ieErr :=
  (b.beat_frame d l).2.2.2.1
theorem Block.beat_eob (d : Byte) (l : Bool) (b : Block) : (b.beat d l).eob = if b.busy then l else b.eob :=
  (b.beat_frame d l).2.2.2.2

/-- An offer leaves `OP`, `CMDERR` and `CTRL` alone. -/
theorem State.takeOffer_frame (s : State) :
    s.takeOffer.block.op = s.block.op ∧ s.takeOffer.block.cmderr = s.block.cmderr ∧
      s.takeOffer.block.ieDone = s.block.ieDone ∧ s.takeOffer.block.ieErr = s.block.ieErr := by
  unfold State.takeOffer
  repeat' split
  all_goals simp

@[simp] theorem Block.beats_nil (b : Block) : b.beats [] = b := rfl

@[simp] theorem Block.beats_cons (x : Beat) (xs : List Beat) (b : Block) :
    b.beats (x :: xs) = (b.beat x.data x.last).beats xs := rfl

theorem Block.beats_append (xs ys : List Beat) (b : Block) : b.beats (xs ++ ys) = (b.beats xs).beats ys := by
  simp [Block.beats]

theorem Block.beats_of_not_busy {b : Block} (h : b.busy = false) (xs : List Beat) : b.beats xs = b := by
  induction xs with
  | nil => rfl
  | cons x xs ih => rw [Block.beats_cons, Block.beat_of_not_busy h, ih]

/-- A block that is still BUSY after a string was BUSY before it. -/
theorem Block.busy_of_beats {b : Block} {xs : List Beat} (h : (b.beats xs).busy = true) : b.busy = true := by
  by_contra hb
  have hb : b.busy = false := by simpa using hb
  rw [Block.beats_of_not_busy hb] at h
  simp [hb] at h

theorem State.feed_of_not_busy {s : State} (h : s.block.busy = false) (n : Nat) : s.feed n = s := by
  induction n with
  | zero => rfl
  | succ n ih => rw [State.feed, State.takeOffer_of_not_busy h, ih]

theorem State.feed_add (m n : Nat) (s : State) : s.feed (m + n) = (s.feed m).feed n := by
  induction m generalizing s with
  | zero => simp [State.feed]
  | succ m ih => rw [Nat.succ_add, State.feed, ih]; rfl

/-- Offers while the block stays BUSY consume the bytes offered. -/
theorem State.feed_of_busy {s : State} {xs ys : List Beat} (hs : s.source = xs ++ ys)
    (h : (s.block.beats xs.dropLast).busy = true ∨ xs = []) :
    s.feed xs.length = { s with block := s.block.beats xs, source := ys } := by
  induction xs generalizing s with
  | nil =>
    simp at hs
    subst hs
    rfl
  | cons x xs ih =>
    have hb : s.block.busy = true := Block.busy_of_beats (xs := (x :: xs).dropLast) (by simpa using h)
    rw [List.length_cons, State.feed, State.takeOffer_of_busy hb hs]
    cases xs with
    | nil => rfl
    | cons y zs =>
      rw [ih (by rfl) (.inl (by simpa using h))]
      rfl

/-- Feeding a whole source whose command ends at the byte `x`: the bytes after it are left. -/
theorem State.feed_until {s : State} {xs ys : List Beat} {x : Beat} (hs : s.source = xs ++ x :: ys)
    (hb : (s.block.beats xs).busy = true) (he : ((s.block.beats xs).beat x.data x.last).busy = false) :
    s.feed s.source.length =
      { s with block := (s.block.beats xs).beat x.data x.last, source := ys } := by
  have hl : s.source.length = (xs ++ [x]).length + ys.length := by simp [hs]; omega
  have h1 := State.feed_of_busy (s := s) (xs := xs ++ [x]) (ys := ys) (by simp [hs]) (.inl (by simpa using hb))
  rw [hl, State.feed_add, h1, State.feed_of_not_busy]
  · simp [Block.beats_append]
  · simpa [Block.beats_append] using he

/-- Feeding a whole source on which the command does not end: nothing is left. -/
theorem State.feed_all {s : State} (hb : (s.block.beats s.source).busy = true) :
    s.feed s.source.length = { s with block := s.block.beats s.source, source := [] } := by
  have hd : (s.block.beats s.source.dropLast).busy = true ∨ s.source = [] := by
    by_cases h : s.source = []
    · exact .inr h
    · refine .inl ?_
      rw [← List.dropLast_append_getLast h, Block.beats_append] at hb
      exact Block.busy_of_beats hb
  exact State.feed_of_busy (by simp) hd

end Sys2Proof.Machine
end

