-- ==== Sys2Proof/Laws/PerInstr.lean ====
section
/-! SUPPORT. Statements about every instruction as syntax, one lemma per constructor. -/

namespace Sys2Proof.Laws.TableMatch

/-- The `match` of an instruction's row in spec/opcode_table.json: the opcode of a row of format `CMD`, the register
index of a row of format `REG`. -/
def rowMatch : Instr → BitVec 4
  | .nop _ => 0x0
  | .verify _ => 0x1
  | .verifys _ => 0x2
  | .gen _ => 0x3
  | .label _ => 0x4
  | .drain _ => 0x5
  | .clear _ => 0x6
  | .wrCtrl _ _ _ => 0x1
  | .wrType _ _ _ _ => 0x5

/-- Is the row of format `CMD`? -/
def rowIsCommand : Instr → Bool
  | .nop _ => true
  | .verify _ => true
  | .verifys _ => true
  | .gen _ => true
  | .label _ => true
  | .drain _ => true
  | .clear _ => true
  | .wrCtrl _ _ _ => false
  | .wrType _ _ _ _ => false

/-- The write that an instruction is carries its row's bits: a `CMD` row's in bits 3:0 of a word written to register 0,
a `REG` row's in `reg_addr`; and a well-formed `CMD` word has nothing above them (30_encoding.md R66, R67). -/
def Statement (i : Instr) : Prop :=
  if rowIsCommand i then
    (encode i).1 = 0 ∧ (encode i).2.extractLsb' 0 4 = rowMatch i ∧ (i.wf = true → (encode i).2 = (rowMatch i).setWidth 32)
  else (encode i).1 = rowMatch i

theorem command (ign : BitVec 28) (op : Code) :
    (commandWord ign op).extractLsb' 0 4 = op ∧ (ign = 0 → commandWord ign op = op.setWidth 32) := by
  constructor
  · unfold commandWord
    ext i hi
    simp
    grind
  · rintro rfl
    unfold commandWord
    ext i hi
    simp
    grind

theorem nop (ign : BitVec 28) : Statement (.nop ign) := by
  simpa [Statement, rowIsCommand, rowMatch, encode, Reg.cmd, Instr.wf, Opcode.nop] using command ign 0x0
theorem verify (ign : BitVec 28) : Statement (.verify ign) := by
  simpa [Statement, rowIsCommand, rowMatch, encode, Reg.cmd, Instr.wf, Opcode.verify] using command ign 0x1
theorem verifys (ign : BitVec 28) : Statement (.verifys ign) := by
  simpa [Statement, rowIsCommand, rowMatch, encode, Reg.cmd, Instr.wf, Opcode.verifys] using command ign 0x2
theorem gen (ign : BitVec 28) : Statement (.gen ign) := by
  simpa [Statement, rowIsCommand, rowMatch, encode, Reg.cmd, Instr.wf, Opcode.gen] using command ign 0x3
theorem label (ign : BitVec 28) : Statement (.label ign) := by
  simpa [Statement, rowIsCommand, rowMatch, encode, Reg.cmd, Instr.wf, Opcode.label] using command ign 0x4
theorem drain (ign : BitVec 28) : Statement (.drain ign) := by
  simpa [Statement, rowIsCommand, rowMatch, encode, Reg.cmd, Instr.wf, Opcode.drain] using command ign 0x5
theorem clear (ign : BitVec 28) : Statement (.clear ign) := by
  simpa [Statement, rowIsCommand, rowMatch, encode, Reg.cmd, Instr.wf, Opcode.clear] using command ign 0x6
theorem wrCtrl (ieDone ieErr : Bool) (ign : BitVec 30) : Statement (.wrCtrl ieDone ieErr ign) := rfl
theorem wrType (b0 b1 b2 b3 : Byte) : Statement (.wrType b0 b1 b2 b3) := rfl

end Sys2Proof.Laws.TableMatch
end

