-- ==== Sys2Proof/Laws/Wire.lean ====
section
/-! SUPPORT. Byte strings: marked and unmarked strings, and what shifting a string into a 32-bit field leaves. -/

namespace Sys2Proof.Machine

/-! ## Marks -/

@[simp] theorem unmarked_nil : unmarked [] = [] := rfl
@[simp] theorem unmarked_cons (d : Byte) (xs : List Byte) : unmarked (d :: xs) = ⟨d, false⟩ :: unmarked xs := rfl
@[simp] theorem unmarked_append (xs ys : List Byte) : unmarked (xs ++ ys) = unmarked xs ++ unmarked ys := by
  simp [unmarked]
@[simp] theorem unmarked_length (xs : List Byte) : (unmarked xs).length = xs.length := by simp [unmarked]

theorem markLast_snoc (xs : List Byte) (d : Byte) : markLast (xs ++ [d]) = unmarked xs ++ [⟨d, true⟩] := by
  induction xs with
  | nil => rfl
  | cons x xs ih =>
    cases xs with
    | nil => rfl
    | cons y ys => simpa [markLast] using ih

theorem markLast_ne_nil {xs : List Byte} (h : xs ≠ []) :
    markLast xs = unmarked xs.dropLast ++ [⟨xs.getLast h, true⟩] := by
  conv_lhs => rw [← List.dropLast_append_getLast h]
  exact markLast_snoc _ _

/-- A string of beats none of which is marked is the unmarked string of its bytes. -/
theorem eq_unmarked {xs : List Beat} (h : ∀ x ∈ xs, x.last = false) : xs = unmarked (xs.map Beat.data) := by
  induction xs with
  | nil => rfl
  | cons x xs ih =>
    obtain ⟨d, l⟩ := x
    have hl : l = false := h ⟨d, l⟩ (by simp)
    subst hl
    simp only [List.map_cons, unmarked_cons]
    rw [← ih fun y hy => h y (by simp [hy])]

theorem firstLast_none {xs : List Beat} (h : firstLast xs = none) : xs = unmarked (xs.map Beat.data) := by
  refine eq_unmarked fun x hx => ?_
  have := List.findIdx?_eq_none_iff.mp h x hx
  simpa using this

/-- The source cut at its first mark. -/
theorem firstLast_some {xs : List Beat} {e : Nat} (h : firstLast xs = some e) :
    ∃ (ys : List Byte) (d : Byte), ys.length = e ∧ xs = unmarked ys ++ ⟨d, true⟩ :: xs.drop (e + 1) := by
  induction xs generalizing e with
  | nil => simp [firstLast] at h
  | cons x xs ih =>
    obtain ⟨d, l⟩ := x
    cases l with
    | true =>
      simp [firstLast, List.findIdx?_cons] at h
      subst h
      exact ⟨[], d, rfl, by simp⟩
    | false =>
      simp [firstLast, List.findIdx?_cons] at h
      obtain ⟨k, hk, rfl⟩ := h
      obtain ⟨ys, c, hl, hx⟩ := ih hk
      refine ⟨d :: ys, c, by simp [hl], ?_⟩
      simpa using hx

/-! ## Bytes shifted into a field -/

/-- A string shifted into a field that was 0 (20_memory.md R45). -/
def packed (bytes : List Byte) : Word := bytes.foldl shiftIn 0

@[simp] theorem packed_nil : packed [] = 0 := rfl

@[simp] theorem packed_snoc (xs : List Byte) (d : Byte) : packed (xs ++ [d]) = shiftIn (packed xs) d := by
  simp [packed]

/-- Four bytes shifted in leave nothing of what was there. -/
theorem shiftIn_four (w : Word) (a b c d : Byte) :
    shiftIn (shiftIn (shiftIn (shiftIn w a) b) c) d = be32 a b c d := by
  unfold shiftIn be32
  ext i hi
  simp
  grind

theorem packed_four (xs : List Byte) (a b c d : Byte) : packed (xs ++ [a, b, c, d]) = be32 a b c d := by
  have h : xs ++ [a, b, c, d] = xs ++ [a] ++ [b] ++ [c] ++ [d] := by simp
  rw [h]
  simp only [packed_snoc, shiftIn_four]

/-- A list of four or more is its first four and the rest. -/
theorem four_split {α : Type} {xs : List α} (h : 4 ≤ xs.length) :
    ∃ a b c d ys, xs = a :: b :: c :: d :: ys := by
  match xs, h with
  | a :: b :: c :: d :: ys, _ => exact ⟨a, b, c, d, ys, rfl⟩

theorem be32Of_eq_packed {bytes : List Byte} (h : 4 ≤ bytes.length) : be32Of bytes = packed (bytes.take 4) := by
  obtain ⟨a, b, c, d, ys, rfl⟩ := four_split h
  have : packed [a, b, c, d] = be32 a b c d := packed_four [] a b c d
  simpa [be32Of] using this.symm

/-- The field holds the last four bytes of a string. -/
theorem packed_eq_be32Of_drop {bytes : List Byte} (h : 4 ≤ bytes.length) :
    packed bytes = be32Of (bytes.drop (bytes.length - 4)) := by
  have hl : 4 ≤ (bytes.drop (bytes.length - 4)).length := by simp; omega
  rw [be32Of_eq_packed hl]
  have h4 : (bytes.drop (bytes.length - 4)).length = 4 := by simp; omega
  obtain ⟨a, b, c, d, ys, hs⟩ := four_split hl
  have hy : ys = [] := by
    rw [hs] at h4
    simpa using h4
  subst hy
  conv_lhs => rw [← List.take_append_drop (bytes.length - 4) bytes, hs]
  rw [packed_four, hs]
  exact (packed_four [] a b c d).symm

theorem byte0_be32 (a b c d : Byte) : byte0 (be32 a b c d) = a := by
  unfold be32 byte0
  ext i hi
  simp
  grind

/-- The oldest of the last four bytes, at the top of the field. -/
theorem byte0_packed {bytes : List Byte} (h : 4 ≤ bytes.length) :
    byte0 (packed bytes) = bytes[bytes.length - 4]'(by omega) := by
  have hl : 4 ≤ (bytes.drop (bytes.length - 4)).length := by simp; omega
  obtain ⟨a, b, c, d, ys, hs⟩ := four_split hl
  rw [packed_eq_be32Of_drop h, hs]
  have : a = (bytes.drop (bytes.length - 4))[0] := by simp [hs]
  simp only [be32Of, List.getD_cons_zero, List.getD_cons_succ, byte0_be32, this, List.getElem_drop, Nat.add_zero]

theorem bytesOf_length (v : Word) : (bytesOf v).length = 4 := rfl

theorem packed_bytesOf (v : Word) : packed (bytesOf v) = v := by
  have := packed_four [] (byte0 v) (byte1 v) (byte2 v) (byte3 v)
  rw [be32_bytes] at this
  exact this

/-! ## The accumulator over strings -/

@[simp] theorem crcFeed_nil (c : Word) : crcFeed c [] = c := rfl

theorem crcFeed_append (c : Word) (xs ys : List Byte) : crcFeed c (xs ++ ys) = crcFeed (crcFeed c xs) ys := by
  simp [crcFeed]

@[simp] theorem crcFeed_snoc (c : Word) (xs : List Byte) (d : Byte) :
    crcFeed c (xs ++ [d]) = crcUpdate (crcFeed c xs) d := by
  simp [crcFeed]

theorem crc32_eq (xs : List Byte) : crc32 xs = ~~~ crcFeed crcInit xs := by
  simp only [crc32]
  exact BitVec.xor_allOnes

theorem Block.read_crcCalc (b : Block) : b.read 7 = ~~~ b.crc := rfl

end Sys2Proof.Machine
end

