-- ==== Sys2Proof/Laws/Progress.lean ====
section
/-! SUPPORT. Where a stream command stands after a string of bytes none of which is marked: one closed form for each
command, and the lemma that feeding the string leads there. -/

namespace Sys2Proof.Machine

theorem Block.beats_unmarked_snoc (b : Block) (xs : List Byte) (d : Byte) :
    b.beats (unmarked (xs ++ [d])) = (b.beats (unmarked xs)).beat d false := by
  simp [Block.beats_append]

theorem ofNat_min_toNat (n : Nat) {k : Nat} (h : k < 2 ^ 32) : (BitVec.ofNat 32 (min n k)).toNat = min n k := by
  rw [BitVec.toNat_ofNat]
  exact Nat.mod_eq_of_lt (by omega)

/-! ## GEN -/

/-- GEN after the unmarked bytes `xs`. -/
def genAfter (b : Block) (xs : List Byte) : Block :=
  { b.forget with
    state := .genr
    op := 3
    type := packed (xs.take 4)
    crc := crcFeed crcInit xs
    cnt := BitVec.ofNat 32 (min xs.length 4)
    len := BitVec.ofNat 32 (xs.length - 4) }

/-- One byte more into GEN, marked or not, short of the overflow. -/
theorem genAfter_shift (b : Block) (xs : List Byte) (d : Byte) (l : Bool) (h : xs.length < 2 ^ 32 + 3) :
    (genAfter b xs).beat d l =
      if l then
        (if (xs ++ [d]).length < 4 then { genAfter b (xs ++ [d]) with eob := true }.raise .truncated
         else { genAfter b (xs ++ [d]) with eob := true, state := .done })
      else genAfter b (xs ++ [d]) := by
  have hc : (BitVec.ofNat 32 (min xs.length 4)).toNat = min xs.length 4 := ofNat_min_toNat _ (by omega)
  have hlt : (BitVec.ofNat 32 (min (xs ++ [d]).length 4)).toNat < 4 ↔ (xs ++ [d]).length < 4 := by
    rw [ofNat_min_toNat _ (by omega)]
    omega
  have hov : ¬(4 ≤ (BitVec.ofNat 32 (min xs.length 4)).toNat ∧ BitVec.ofNat 32 (xs.length - 4) = 0xFFFFFFFF) := by
    rintro ⟨-, hh⟩
    have := congrArg BitVec.toNat hh
    simp at this
    omega
  simp only [Block.beat, genAfter, Block.beatGenr, lenMax, hov, if_false]
  by_cases h4 : xs.length < 4
  · have ht : (xs ++ [d]).take 4 = xs ++ [d] := List.take_of_length_le (by simp; omega)
    have ht' : xs.take 4 = xs := List.take_of_length_le (by omega)
    have hl : xs.length - 4 = (xs ++ [d]).length - 4 := by simp; omega
    have hn : BitVec.ofNat 32 (min xs.length 4) + 1 = BitVec.ofNat 32 (min (xs ++ [d]).length 4) := by
      apply BitVec.eq_of_toNat_eq
      simp
      omega
    have hp : (BitVec.ofNat 32 (min xs.length 4)).toNat < 4 := by omega
    simp only [hp, if_true, hn, ht, ht', hl, hlt, crcFeed_snoc, packed_snoc]
    cases l <;> rfl
  · have hn : min xs.length 4 = min (xs ++ [d]).length 4 := by simp; omega
    have hl' : BitVec.ofNat 32 (xs.length - 4) + 1 = BitVec.ofNat 32 ((xs ++ [d]).length - 4) := by
      apply BitVec.eq_of_toNat_eq
      simp
      omega
    have ht : (xs ++ [d]).take 4 = xs.take 4 := List.take_append_of_le_length (by omega)
    have hp : ¬(BitVec.ofNat 32 (min xs.length 4)).toNat < 4 := by omega
    simp only [hp, if_false, hl', ht, crcFeed_snoc]
    have hge : ¬(xs ++ [d]).length < 4 := by simp; omega
    simp only [hn, hge, if_false]
    cases l <;> rfl

/-- The byte that is one too many: `LenOverflow`, whatever its mark. -/
theorem genAfter_overflow (b : Block) {xs : List Byte} (d : Byte) (l : Bool) (h : xs.length = 2 ^ 32 + 3) :
    (genAfter b xs).beat d l = { genAfter b xs with eob := l }.raise .lenOverflow := by
  have hc : (genAfter b xs).cnt = 4 := by
    show BitVec.ofNat 32 (min xs.length 4) = 4
    rw [h]
    rfl
  have hl : (genAfter b xs).len = 0xFFFFFFFF := by
    show BitVec.ofNat 32 (xs.length - 4) = 0xFFFFFFFF
    rw [h]
    rfl
  have hs : (genAfter b xs).state = .genr := rfl
  simp only [Block.beat, hs, Block.beatGenr, lenMax, hc, hl]
  rfl

theorem gen_beats {b : Block} (h : b.busy = false) (xs : List Byte) (hl : xs.length ≤ 2 ^ 32 + 3) :
    (b.startStream .gen).beats (unmarked xs) = genAfter b xs := by
  induction xs using List.reverseRecOn with
  | nil => rw [Block.startStream_of_not_busy _ h]; rfl
  | append_singleton xs d ih =>
    have hl : xs.length < 2 ^ 32 + 3 := by simp at hl; omega
    rw [Block.beats_unmarked_snoc, ih (by omega), genAfter_shift b xs d false hl]
    rfl

/-! ## VERIFY -/

/-- VERIFY after the unmarked bytes `xs`, fewer than the frame has: in the field that the number of bytes says. -/
def verifyAfter (b : Block) (xs : List Byte) : Block :=
  let len := packed (xs.take 4)
  let body := xs.drop 4
  if xs.length < 4 then { b.forget with state := .lenf, op := 1, len := packed xs, cnt := BitVec.ofNat 32 xs.length }
  else if xs.length < 8 then
    { b.forget with
      state := .typef, op := 1, len := len, type := packed body, crc := crcFeed crcInit body
      cnt := BitVec.ofNat 32 (xs.length - 4) }
  else if xs.length < 8 + len.toNat then
    { b.forget with
      state := .payld, op := 1, len := len, type := packed (body.take 4), crc := crcFeed crcInit body
      cnt := BitVec.ofNat 32 (xs.length - 8) }
  else
    { b.forget with
      state := .crcf, op := 1, len := len, type := packed (body.take 4)
      crc := crcFeed crcInit (body.take (4 + len.toNat)), crcRx := packed (body.drop (4 + len.toNat))
      cnt := BitVec.ofNat 32 (xs.length - (8 + len.toNat)) }

theorem verifyAfter_lenf (b : Block) {xs : List Byte} (h : xs.length < 4) :
    verifyAfter b xs =
      { b.forget with state := .lenf, op := 1, len := packed xs, cnt := BitVec.ofNat 32 xs.length } := by
  simp only [verifyAfter, h, if_true]

theorem verifyAfter_typef (b : Block) {xs : List Byte} (h : 4 ≤ xs.length) (h8 : xs.length < 8) :
    verifyAfter b xs =
      { b.forget with
        state := .typef, op := 1, len := packed (xs.take 4), type := packed (xs.drop 4)
        crc := crcFeed crcInit (xs.drop 4), cnt := BitVec.ofNat 32 (xs.length - 4) } := by
  have h4 : ¬xs.length < 4 := by omega
  simp only [verifyAfter, h4, h8, if_true, if_false]

theorem verifyAfter_payld (b : Block) {xs : List Byte} (h : 8 ≤ xs.length)
    (hL : xs.length < 8 + (packed (xs.take 4)).toNat) :
    verifyAfter b xs =
      { b.forget with
        state := .payld, op := 1, len := packed (xs.take 4), type := packed ((xs.drop 4).take 4)
        crc := crcFeed crcInit (xs.drop 4), cnt := BitVec.ofNat 32 (xs.length - 8) } := by
  have h4 : ¬xs.length < 4 := by omega
  have h8 : ¬xs.length < 8 := by omega
  simp only [verifyAfter, h4, h8, hL, if_true, if_false]

theorem verifyAfter_crcf (b : Block) {xs : List Byte} (hL : 8 + (packed (xs.take 4)).toNat ≤ xs.length) :
    verifyAfter b xs =
      { b.forget with
        state := .crcf, op := 1, len := packed (xs.take 4), type := packed ((xs.drop 4).take 4)
        crc := crcFeed crcInit ((xs.drop 4).take (4 + (packed (xs.take 4)).toNat))
        crcRx := packed ((xs.drop 4).drop (4 + (packed (xs.take 4)).toNat))
        cnt := BitVec.ofNat 32 (xs.length - (8 + (packed (xs.take 4)).toNat)) } := by
  have h4 : ¬xs.length < 4 := by omega
  have h8 : ¬xs.length < 8 := by omega
  have h9 : ¬xs.length < 8 + (packed (xs.take 4)).toNat := by omega
  simp only [verifyAfter, h4, h8, h9, if_false]

/-- One byte more into VERIFY, short of the frame's last: a marked one is `Truncated`. -/
theorem verifyAfter_shift (b : Block) (xs : List Byte) (d : Byte) (l : Bool)
    (h : xs.length < 8 ∨ xs.length < 11 + (packed (xs.take 4)).toNat) :
    (if l then
      (((verifyAfter b xs).beat d l).state = .error ∧ ((verifyAfter b xs).beat d l).err = 2)
     else (verifyAfter b xs).beat d l = verifyAfter b (xs ++ [d])) := by
  by_cases h4 : xs.length < 4
  · rw [verifyAfter_lenf b h4]
    have hc : BitVec.ofNat 32 xs.length + 1 = 4 ↔ xs.length = 3 := by
      rw [← BitVec.toNat_inj]
      simp
      omega
    cases l
    · simp only [Block.beat, Block.beatLenf, hc]
      by_cases h3 : xs.length = 3
      · rw [verifyAfter_typef b (by simp; omega) (by simp; omega)]
        have ht : (xs ++ [d]).take 4 = xs ++ [d] := List.take_of_length_le (by simp; omega)
        have hd : (xs ++ [d]).drop 4 = [] := List.drop_of_length_le (by simp; omega)
        simp [h3, ht, hd, Block.forget]
      · rw [verifyAfter_lenf b (by simp; omega)]
        have hn : BitVec.ofNat 32 xs.length + 1 = BitVec.ofNat 32 (xs ++ [d]).length := by
          apply BitVec.eq_of_toNat_eq
          simp
        simp only [h3, if_false, hn, packed_snoc]
        rfl
    · exact ⟨rfl, rfl⟩
  have ht : (xs ++ [d]).take 4 = xs.take 4 := List.take_append_of_le_length (by omega)
  have hd : (xs ++ [d]).drop 4 = xs.drop 4 ++ [d] := List.drop_append_of_le_length (by omega)
  have hdl : (xs.drop 4).length = xs.length - 4 := List.length_drop
  by_cases h8 : xs.length < 8
  · rw [verifyAfter_typef b (by omega) h8]
    have hc : BitVec.ofNat 32 (xs.length - 4) + 1 = 4 ↔ xs.length = 7 := by
      rw [← BitVec.toNat_inj]
      simp
      omega
    cases l
    · simp only [Block.beat, Block.beatTypef, hc]
      by_cases h7 : xs.length = 7
      · by_cases h0 : packed (xs.take 4) = 0
        · rw [verifyAfter_crcf b (by rw [ht, h0]; simp; omega)]
          have e1 : (xs.drop 4 ++ [d]).take 4 = xs.drop 4 ++ [d] := List.take_of_length_le (by simp; omega)
          have e2 : (xs.drop 4 ++ [d]).drop 4 = [] := List.drop_of_length_le (by simp; omega)
          simp [h7, h0, ht, hd, e1, e2, Block.forget]
        · have hpos : 0 < (packed (xs.take 4)).toNat := by
            rcases Nat.eq_zero_or_pos (packed (xs.take 4)).toNat with hz | hz
            · exact absurd (BitVec.eq_of_toNat_eq hz) h0
            · exact hz
          rw [verifyAfter_payld b (by simp; omega) (by rw [ht]; simp; omega)]
          have e1 : (xs.drop 4 ++ [d]).take 4 = xs.drop 4 ++ [d] := List.take_of_length_le (by simp; omega)
          rw [ht, hd, e1]
          simp only [h7, h0, if_true, if_false, packed_snoc, crcFeed_snoc]
          simp [h7]
      · rw [verifyAfter_typef b (by simp; omega) (by simp; omega)]
        have hn : BitVec.ofNat 32 (xs.length - 4) + 1 = BitVec.ofNat 32 ((xs ++ [d]).length - 4) := by
          apply BitVec.eq_of_toNat_eq
          simp
          omega
        rw [ht, hd]
        simp only [h7, if_false, hn, packed_snoc, crcFeed_snoc]
        rfl
    · exact ⟨rfl, rfl⟩
  have hd4 : (xs.drop 4 ++ [d]).take 4 = (xs.drop 4).take 4 := List.take_append_of_le_length (by omega)
  have h : xs.length < 11 + (packed (xs.take 4)).toNat := by omega
  by_cases hL : xs.length < 8 + (packed (xs.take 4)).toNat
  · rw [verifyAfter_payld b (by omega) hL]
    have hc : BitVec.ofNat 32 (xs.length - 8) + 1 = packed (xs.take 4) ↔
        xs.length + 1 = 8 + (packed (xs.take 4)).toNat := by
      have := (packed (xs.take 4)).isLt
      rw [← BitVec.toNat_inj]
      simp
      omega
    cases l
    · simp only [Block.beat, Block.beatPayld, hc]
      by_cases h1 : xs.length + 1 = 8 + (packed (xs.take 4)).toNat
      · rw [verifyAfter_crcf b (by rw [ht]; simp; omega), ht, hd, hd4]
        have e1 : (xs.drop 4 ++ [d]).take (4 + (packed (xs.take 4)).toNat) = xs.drop 4 ++ [d] :=
          List.take_of_length_le (by simp; omega)
        have e2 : (xs.drop 4 ++ [d]).drop (4 + (packed (xs.take 4)).toNat) = [] :=
          List.drop_of_length_le (by simp; omega)
        have e3 : (xs ++ [d]).length - (8 + (packed (xs.take 4)).toNat) = 0 := by simp; omega
        simp only [h1, if_true, e1, e2, e3, crcFeed_snoc]
        rfl
      · rw [verifyAfter_payld b (by simp; omega) (by rw [ht]; simp; omega), ht, hd, hd4]
        have hn : BitVec.ofNat 32 (xs.length - 8) + 1 = BitVec.ofNat 32 ((xs ++ [d]).length - 8) := by
          apply BitVec.eq_of_toNat_eq
          simp
          omega
        simp only [h1, if_false, hn, crcFeed_snoc]
        rfl
    · exact ⟨rfl, rfl⟩
  · rw [verifyAfter_crcf b (by omega)]
    have hc : (BitVec.ofNat 32 (xs.length - (8 + (packed (xs.take 4)).toNat)) + 1).toNat < 4 := by
      simp
      omega
    cases l
    · simp only [Block.beat, Block.beatCrcf, hc]
      rw [verifyAfter_crcf b (by rw [ht]; simp; omega), ht, hd, hd4]
      have e1 : (xs.drop 4 ++ [d]).take (4 + (packed (xs.take 4)).toNat)
          = (xs.drop 4).take (4 + (packed (xs.take 4)).toNat) := List.take_append_of_le_length (by omega)
      have e2 : (xs.drop 4 ++ [d]).drop (4 + (packed (xs.take 4)).toNat)
          = (xs.drop 4).drop (4 + (packed (xs.take 4)).toNat) ++ [d] := List.drop_append_of_le_length (by omega)
      have hn : BitVec.ofNat 32 (xs.length - (8 + (packed (xs.take 4)).toNat)) + 1
          = BitVec.ofNat 32 ((xs ++ [d]).length - (8 + (packed (xs.take 4)).toNat)) := by
        apply BitVec.eq_of_toNat_eq
        simp
        omega
      simp only [if_true, e1, e2, hn, packed_snoc]
      rfl
    · simp only [Block.beat, Block.beatCrcf, hc, if_true]
      exact ⟨rfl, rfl⟩

theorem verify_beats {b : Block} (h : b.busy = false) (xs : List Byte)
    (hl : xs.length ≤ 8 ∨ xs.length ≤ 11 + (packed (xs.take 4)).toNat) :
    (b.startStream .verify).beats (unmarked xs) = verifyAfter b xs := by
  induction xs using List.reverseRecOn with
  | nil => rw [Block.startStream_of_not_busy _ h]; rfl
  | append_singleton xs d ih =>
    have hs : xs.length < 8 ∨ xs.length < 11 + (packed (xs.take 4)).toNat := by
      simp only [List.length_append, List.length_singleton] at hl
      by_cases h4 : xs.length < 4
      · omega
      · rw [List.take_append_of_le_length (by omega)] at hl
        omega
    rw [Block.beats_unmarked_snoc, ih (by omega)]
    exact verifyAfter_shift b xs d false hs

/-! ## VERIFYS -/

/-- VERIFYS after the unmarked bytes `xs`: the delay line holds the last four, what came before is released. -/
def verifysAfter (b : Block) (xs : List Byte) : Block :=
  { b.forget with
    state := .slice
    op := 2
    type := packed ((xs.take (xs.length - 4)).take 4)
    crc := crcFeed crcInit (xs.take (xs.length - 4))
    crcRx := packed xs
    cnt := BitVec.ofNat 32 (min xs.length 8)
    len := BitVec.ofNat 32 (xs.length - 8) }

/-- One byte more into the delay line, marked or not, short of the overflow. -/
theorem verifysAfter_shift (b : Block) (xs : List Byte) (d : Byte) (l : Bool) (h : xs.length < 2 ^ 32 + 7) :
    (verifysAfter b xs).beat d l =
      if l then
        (if (xs ++ [d]).length < 8 then { verifysAfter b (xs ++ [d]) with eob := true }.raise .truncated
         else { verifysAfter b (xs ++ [d]) with eob := true }.compareChecksum)
      else verifysAfter b (xs ++ [d]) := by
  have hmin : satInc (BitVec.ofNat 32 (min xs.length 8)) 8 = BitVec.ofNat 32 (min (xs ++ [d]).length 8) := by
    apply BitVec.eq_of_toNat_eq
    simp [satInc]
    omega
  have hlt : (BitVec.ofNat 32 (min (xs ++ [d]).length 8)).toNat < 8 ↔ (xs ++ [d]).length < 8 := by
    rw [ofNat_min_toNat _ (by omega)]
    omega
  have hc : (BitVec.ofNat 32 (min xs.length 8)).toNat = min xs.length 8 := ofNat_min_toNat _ (by omega)
  have hov : ¬(8 ≤ (BitVec.ofNat 32 (min xs.length 8)).toNat ∧ BitVec.ofNat 32 (xs.length - 8) = 0xFFFFFFFF) := by
    rintro ⟨-, hh⟩
    have := congrArg BitVec.toNat hh
    simp at this
    omega
  simp only [Block.beat, verifysAfter, Block.beatSlice, lenMax, hov, if_false, Block.releaseOldest]
  by_cases h4 : xs.length < 4
  · have e1 : xs.take (xs.length - 4) = [] := by simp; omega
    have e2 : (xs ++ [d]).take ((xs ++ [d]).length - 4) = [] := by
      rw [show (xs ++ [d]).length - 4 = 0 by simp; omega, List.take_zero]
    have e3 : xs.length - 8 = (xs ++ [d]).length - 8 := by simp; omega
    have hp : ¬4 ≤ (BitVec.ofNat 32 (min xs.length 8)).toNat := by omega
    simp only [hp, if_false, hmin, hlt, e1, e2, e3, packed_snoc]
    cases l <;> rfl
  · have hx : (xs ++ [d]).take ((xs ++ [d]).length - 4) = xs.take (xs.length - 4) ++ [byte0 (packed xs)] := by
      have hn : (xs ++ [d]).length - 4 = xs.length - 4 + 1 := by simp; omega
      rw [byte0_packed (by omega), hn, List.take_append_of_le_length (by omega), List.take_add_one]
      simp [List.getElem?_eq_getElem (show xs.length - 4 < xs.length by omega)]
    have hp : 4 ≤ (BitVec.ofNat 32 (min xs.length 8)).toNat := by omega
    by_cases h8 : xs.length < 8
    · have e3 : xs.length - 8 = (xs ++ [d]).length - 8 := by simp; omega
      have e4 : (xs.take (xs.length - 4)).take 4 = xs.take (xs.length - 4) :=
        List.take_of_length_le (by simp; omega)
      have e5 : (xs.take (xs.length - 4) ++ [byte0 (packed xs)]).take 4
          = xs.take (xs.length - 4) ++ [byte0 (packed xs)] := List.take_of_length_le (by simp; omega)
      have hq : (BitVec.ofNat 32 (min xs.length 8)).toNat < 8 := by omega
      simp only [hp, hq, if_true, hmin, hlt, hx, e3, e4, e5, packed_snoc, crcFeed_snoc]
      cases l <;> rfl
    · have e3 : BitVec.ofNat 32 (xs.length - 8) + 1 = BitVec.ofNat 32 ((xs ++ [d]).length - 8) := by
        apply BitVec.eq_of_toNat_eq
        simp
        omega
      have e5 : (xs.take (xs.length - 4) ++ [byte0 (packed xs)]).take 4 = (xs.take (xs.length - 4)).take 4 :=
        List.take_append_of_le_length (by simp; omega)
      have hq : ¬(BitVec.ofNat 32 (min xs.length 8)).toNat < 8 := by omega
      simp only [hp, hq, if_true, if_false, hmin, hlt, hx, e3, e5, packed_snoc, crcFeed_snoc]
      cases l <;> rfl

/-- The byte that is one too many: `LenOverflow`, whatever its mark. -/
theorem verifysAfter_overflow (b : Block) {xs : List Byte} (d : Byte) (l : Bool) (h : xs.length = 2 ^ 32 + 7) :
    (verifysAfter b xs).beat d l = { verifysAfter b xs with eob := l }.raise .lenOverflow := by
  have hc : (verifysAfter b xs).cnt = 8 := by
    show BitVec.ofNat 32 (min xs.length 8) = 8
    rw [h]
    rfl
  have hl : (verifysAfter b xs).len = 0xFFFFFFFF := by
    show BitVec.ofNat 32 (xs.length - 8) = 0xFFFFFFFF
    rw [h]
    rfl
  have hs : (verifysAfter b xs).state = .slice := rfl
  simp only [Block.beat, hs, Block.beatSlice, lenMax, hc, hl]
  rfl

theorem verifys_beats {b : Block} (h : b.busy = false) (xs : List Byte) (hl : xs.length ≤ 2 ^ 32 + 7) :
    (b.startStream .verifys).beats (unmarked xs) = verifysAfter b xs := by
  induction xs using List.reverseRecOn with
  | nil => rw [Block.startStream_of_not_busy _ h]; rfl
  | append_singleton xs d ih =>
    have hl : xs.length < 2 ^ 32 + 7 := by simp at hl; omega
    rw [Block.beats_unmarked_snoc, ih (by omega), verifysAfter_shift b xs d false hl]
    rfl

/-! ## LABEL and DRAIN -/

/-- LABEL after the unmarked bytes `xs`. -/
def labelAfter (b : Block) (xs : List Byte) : Block :=
  { b.forget with
    state := .labelr
    op := 4
    type := packed (xs.take 4)
    cnt := BitVec.ofNat 32 (min xs.length 5) }

/-- One byte more into LABEL, marked or not. -/
theorem labelAfter_shift (b : Block) (xs : List Byte) (d : Byte) (l : Bool) :
    (labelAfter b xs).beat d l =
      if l then
        (if (xs ++ [d]).length ≠ 4 then { labelAfter b (xs ++ [d]) with eob := true }.raise .invalidLength
         else if !isAlpha (packed (xs ++ [d])) then { labelAfter b (xs ++ [d]) with eob := true }.raise .invalidByte
         else { labelAfter b (xs ++ [d]) with eob := true, state := .done })
      else labelAfter b (xs ++ [d]) := by
  have hs : satInc (BitVec.ofNat 32 (min xs.length 5)) 5 = BitVec.ofNat 32 (min (xs ++ [d]).length 5) := by
    apply BitVec.eq_of_toNat_eq
    simp [satInc]
    omega
  have hc : (BitVec.ofNat 32 (min xs.length 5)).toNat = min xs.length 5 := ofNat_min_toNat _ (by omega)
  have hne : BitVec.ofNat 32 (min (xs ++ [d]).length 5) ≠ 4 ↔ (xs ++ [d]).length ≠ 4 := by
    rw [Ne, ← BitVec.toNat_inj]
    simp
    omega
  simp only [Block.beat, labelAfter, Block.beatLabelr]
  by_cases h4 : xs.length < 4
  · have ht : (xs ++ [d]).take 4 = xs ++ [d] := List.take_of_length_le (by simp; omega)
    have ht' : xs.take 4 = xs := List.take_of_length_le (by omega)
    have hp : (BitVec.ofNat 32 (min xs.length 5)).toNat < 4 := by omega
    simp only [hp, if_true, hs, ht, ht', hne, packed_snoc]
    cases l <;> rfl
  · have ht : (xs ++ [d]).take 4 = xs.take 4 := List.take_append_of_le_length (by omega)
    have hp : ¬(BitVec.ofNat 32 (min xs.length 5)).toNat < 4 := by omega
    have hl : (xs ++ [d]).length ≠ 4 := by simp; omega
    simp only [hp, if_false, hs, ht, hne]
    simp only [ne_eq, hl, not_false_eq_true, if_true]
    cases l <;> rfl

theorem label_beats {b : Block} (h : b.busy = false) (xs : List Byte) :
    (b.startStream .label).beats (unmarked xs) = labelAfter b xs := by
  induction xs using List.reverseRecOn with
  | nil => rw [Block.startStream_of_not_busy _ h]; rfl
  | append_singleton xs d ih =>
    rw [Block.beats_unmarked_snoc, ih, labelAfter_shift b xs d false]
    rfl

theorem drain_beats {b : Block} (h : b.busy = false) (xs : List Byte) :
    (b.startStream .drain).beats (unmarked xs) = b.startStream .drain := by
  induction xs using List.reverseRecOn with
  | nil => rfl
  | append_singleton xs d ih =>
    rw [Block.beats_unmarked_snoc, ih, Block.startStream_of_not_busy _ h]
    rfl

/-! ## A started command over the whole source -/

/-- A command that ends at a byte of the source: that byte is the last one consumed. -/
theorem State.feed_started {s t : State} {g : Block → Block} (ht : t = s.onBlock g) {xs rest : List Beat} {x : Beat}
    (hs : s.source = xs ++ x :: rest) (hb : ((g s.block).beats xs).busy = true)
    (he : (((g s.block).beats xs).beat x.data x.last).busy = false) :
    t.feed s.source.length =
      { t with block := ((g s.block).beats xs).beat x.data x.last, source := rest } := by
  subst ht
  exact State.feed_until (s := s.onBlock g) (xs := xs) (ys := rest) (x := x) hs hb he

/-- A command that the source does not end: every byte is consumed. -/
theorem State.feed_started_all {s t : State} {g : Block → Block} (ht : t = s.onBlock g)
    (hb : ((g s.block).beats s.source).busy = true) :
    t.feed s.source.length = { t with block := (g s.block).beats s.source, source := [] } := by
  subst ht
  exact State.feed_all (s := s.onBlock g) hb

/-- A source cut before its byte `k`, when none before it is marked. -/
theorem split_unmarked {xs : List Beat} {k : Nat} (hk : k < xs.length) (h : ∀ x ∈ xs.take k, x.last = false) :
    ∃ (ys : List Byte) (x : Beat), ys.length = k ∧ xs = unmarked ys ++ x :: xs.drop (k + 1) ∧
      (xs.map Beat.data).take k = ys ∧ (xs.map Beat.data).take (k + 1) = ys ++ [x.data] := by
  refine ⟨(xs.map Beat.data).take k, xs[k], by simp; omega, ?_, rfl, ?_⟩
  · have := eq_unmarked h
    rw [← List.map_take, ← this]
    simp
  · rw [List.take_add_one]
    simp [List.getElem?_eq_getElem hk]

/-- The bytes up to the first mark. -/
theorem take_to_mark {xs : List Beat} {ys : List Byte} {d : Byte} {e : Nat} (hl : ys.length = e)
    (h : xs = unmarked ys ++ ⟨d, true⟩ :: xs.drop (e + 1)) : (xs.map Beat.data).take (e + 1) = ys ++ [d] := by
  rw [h]
  have hm : (unmarked ys).map Beat.data = ys := by simp [unmarked, Function.comp_def]
  rw [List.map_append, hm, List.map_cons, List.append_cons, List.take_append_of_le_length (by simp; omega),
    List.take_of_length_le (by simp; omega)]

theorem be32Of_take (bytes : List Byte) {n : Nat} (h : 4 ≤ n) : be32Of (bytes.take n) = be32Of bytes := by
  unfold be32Of
  simp only [List.getD_eq_getElem?_getD]
  rw [List.getElem?_take_of_lt (by omega), List.getElem?_take_of_lt (by omega), List.getElem?_take_of_lt (by omega),
    List.getElem?_take_of_lt (by omega)]

end Sys2Proof.Machine
end

