-- ==== Sys2Proof/Tests/Slice0.lean ====
section
/-! SUPPORT. Tests: ill-formed terms, decoded words, one step of each instruction and of each kind of beat, and a witness
for the hypotheses of each statement. Expected values are the spec's: 30_encoding.md R67 for the words,
95_test_vectors.md (the vector is named) for the effects. -/

namespace Sys2Proof.Tests.Slice0

open Sys2Proof Sys2Proof.Machine

/-! ## Well-formedness: each check refuses an ill-formed term -/

theorem test_wf_nop : (Instr.nop 1).wf = false ∧ (Instr.nop 0).wf = true := by decide
theorem test_wf_verify : (Instr.verify 0x8000000).wf = false ∧ (Instr.verify 0).wf = true := by decide
theorem test_wf_verifys : (Instr.verifys 2).wf = false ∧ (Instr.verifys 0).wf = true := by decide
theorem test_wf_gen : (Instr.gen 0xABCDEF0).wf = false ∧ (Instr.gen 0).wf = true := by decide
theorem test_wf_label : (Instr.label 1).wf = false ∧ (Instr.label 0).wf = true := by decide
theorem test_wf_drain : (Instr.drain 4).wf = false ∧ (Instr.drain 0).wf = true := by decide
theorem test_wf_clear : (Instr.clear 1).wf = false ∧ (Instr.clear 0).wf = true := by decide

/-! ## Decoding: words written out from 30_encoding.md R67 (opcode in bits 3:0) and 10_state.md R20 (indices) -/

theorem test_decode_nop : decodeTableWord 32 0b00000000000000000000000000000000 = some (.nop 0) := by decide
theorem test_decode_verify : decodeTableWord 32 0b00000000000000000000000000000001 = some (.verify 0) := by decide
theorem test_decode_verifys : decodeTableWord 32 0b00000000000000000000000000000010 = some (.verifys 0) := by decide
theorem test_decode_gen : decodeTableWord 32 0b00000000000000000000000000000011 = some (.gen 0) := by decide
theorem test_decode_label : decodeTableWord 32 0b00000000000000000000000000000100 = some (.label 0) := by decide
theorem test_decode_drain : decodeTableWord 32 0b00000000000000000000000000000101 = some (.drain 0) := by decide
theorem test_decode_clear : decodeTableWord 32 0b00000000000000000000000000000110 = some (.clear 0) := by decide
theorem test_decode_wrCtrl : decodeTableWord 8 0b0001 = some (.wrCtrl false false 0) := by decide
theorem test_decode_wrType : decodeTableWord 8 0b0101 = some (.wrType 0 0 0 0) := by decide

/-- V-CTL-4 rows 8, 10, 11 and 12: upper bits ignored, reserved opcodes. -/
theorem test_decode_upper_bits :
    decodeWrite 0 0xABCDEF03 = .instr (.gen 0xABCDEF0) ∧ decodeWrite 0 0xFFFFFFF1 = .instr (.verify 0xFFFFFFF) ∧
    decodeWrite 0 0x0000000F = .reservedOpcode 15 ∧ decodeWrite 0 0x00000008 = .reservedOpcode 8 ∧
    decodeWrite 0 0x00000007 = .reservedOpcode 7 := by decide

/-- The operand bytes of WR_TYPE, first byte in bits 31:24 (R90), and the bits of WR_CTRL (R22). -/
theorem test_decode_operands :
    decodeWrite 5 0x52755374 = .instr (.wrType 0x52 0x75 0x53 0x74) ∧
    decodeWrite 1 0x00000001 = .instr (.wrCtrl true false 0) ∧
    decodeWrite 1 0xFFFFFFFE = .instr (.wrCtrl false true 0x3FFFFFFF) := by decide

/-- V-CTL-2: the ignored indices. -/
theorem test_decode_ignored :
    ∀ i ∈ ([2, 3, 4, 6, 7, 8, 9, 10, 15] : List RegIndex), decodeWrite i 0xFFFFFFFF = .ignoredRegister i := by decide

/-- The fixed widths of 00_scope.md R5. -/
theorem test_widths :
    Config.streamWidth = 8 ∧ Config.registerWidth = 32 ∧ Config.indexWidth = 4 ∧ Config.codeWidth = 4 := by decide

/-! ## One step -/

/-- The block after one event. -/
def after (b : Block) (e : Event) (source : List Beat) : Option Block :=
  match step { block := b, inputs := [e], source := source, returned := [] } with
  | .next t => some t.block
  | .fault _ => none
  | .refused _ => none

/-- The block after `Beat(d, l)`. -/
def afterBeat (b : Block) (d : Byte) (l : Bool) : Option Block := after b .offer [⟨d, l⟩]

/-- What register `i` reads as in the block after an event. -/
def reads (b : Option Block) (i : RegIndex) : Option Word := b.map fun b => b.read i

/-- A block in state `q`, with opcode `op`, everything else as after reset. -/
def inState (q : Machine.Seq) (op : Code) : Block := { Block.afterReset with state := q, op := op }

/-- VERIFY with 2 bytes of its length field taken (V-CTL-4 row 2). -/
def inLenf : Block := { inState .lenf 1 with cnt := 2 }

/-- V-CTL-4 row 5. -/
theorem test_nop : after { inLenf with cmderr := true } (.regWrite 0 0) [] = some { inLenf with cmderr := true } := by
  decide

/-- V-VER-1, start; V-CTL-4 row 12: `CMDERR` stays set through start-up. -/
theorem test_verify :
    reads (after Block.afterReset (.regWrite 0 1) []) 2 = some 0x00001101 ∧
    reads (after { Block.afterReset with cmderr := true } (.regWrite 0 0xFFFFFFF1) []) 2 = some 0x00001111 := by decide

/-- V-VFS-1, start. -/
theorem test_verifys : reads (after Block.afterReset (.regWrite 0 2) []) 2 = some 0x00002501 := by decide

/-- V-GEN-2, start; V-CTL-4 row 3: refused while BUSY, `OP` and `CNT` as before. -/
theorem test_gen :
    reads (after Block.afterReset (.regWrite 0 3) []) 2 = some 0x00003601 ∧
    reads (after inLenf (.regWrite 0 3) []) 2 = some 0x00001111 ∧ reads (after inLenf (.regWrite 0 3) []) 9 = some 2 := by
  decide

/-- V-LAB-2, start. -/
theorem test_label : reads (after Block.afterReset (.regWrite 0 4) []) 2 = some 0x00004701 := by decide

/-- V-CTL-3, start; P2: DRAIN leaves ERROR with nothing of the failed command. -/
theorem test_drain :
    reads (after { inState .error 1 with len := 1, crcRx := 0x4E9DABE0, err := 3 } (.regWrite 0 5) []) 2
      = some 0x00005801 := by decide

/-- V-CTL-4 row 7: CLEAR aborts and keeps `CTRL`. -/
theorem test_clear :
    reads (after { inLenf with cmderr := true, ieDone := true, ieErr := true } (.regWrite 0 6) []) 2 = some 0 ∧
    reads (after { inLenf with cmderr := true, ieDone := true, ieErr := true } (.regWrite 0 6) []) 1 = some 3 := by decide

/-- V-CTL-4 row 6: `CTRL` written while BUSY, its ignored bits read 0. -/
theorem test_wrCtrl : reads (after inLenf (.regWrite 1 0xFFFFFFFF) []) 1 = some 3 := by decide

/-- V-TC-32: TYPE written in ERROR keeps ERROR; V-TC-31: refused while BUSY. -/
theorem test_wrType :
    reads (after { inState .error 4 with err := 5, eob := true } (.regWrite 5 0x52757374) []) 6 = some 0x29 ∧
    reads (after { inState .error 4 with err := 5, eob := true } (.regWrite 5 0x52757374) []) 2 = some 0x00004A0C ∧
    reads (after inLenf (.regWrite 5 0x41414141) []) 2 = some 0x00001111 ∧
    reads (after inLenf (.regWrite 5 0x41414141) []) 5 = some 0 := by decide

/-- V-VER-9 k = 4: the length field's 4th byte marked, `CNT` not reset; V-VER-2 beat 4, unmarked. -/
theorem test_beat_lenf :
    reads (afterBeat { inLenf with cnt := 3 } 0 true) 9 = some 4 ∧
    reads (afterBeat { inLenf with cnt := 3 } 1 false) 2 = some 0x00001201 := by decide

/-- V-VER-1 beat 8: the type field's last byte with an empty payload. -/
theorem test_beat_typef :
    reads (afterBeat { inState .typef 1 with type := 0x0049454E, crc := ~~~0x9C60B88A, cnt := 3 } 0x44 false) 2
      = some 0x00001401 ∧
    reads (afterBeat { inState .typef 1 with type := 0x0049454E, crc := ~~~0x9C60B88A, cnt := 3 } 0x44 false) 7
      = some 0xAE426082 := by decide

/-- V-VER-2 beat 9: the payload's last byte. -/
theorem test_beat_payld :
    reads (afterBeat { inState .payld 1 with len := 1, type := 0x74455874, crc := ~~~0x9642C585 } 0x41 false) 2
      = some 0x00001401 ∧
    reads (afterBeat { inState .payld 1 with len := 1, type := 0x74455874, crc := ~~~0x9642C585 } 0x41 false) 7
      = some 0x4E9DABE1 := by decide

/-- V-VER-8 beat 12: the comparison fails, `EOB` = 0; V-VER-1 beat 12: it succeeds. -/
theorem test_beat_crcf :
    reads (afterBeat { inState .crcf 1 with crc := ~~~0x9642C585, crcRx := 0x00414E9D, cnt := 3 } 0xAB false) 2
      = some 0x00001A04 ∧
    reads (afterBeat { inState .crcf 1 with crc := ~~~0xAE426082, crcRx := 0x00AE4260, cnt := 3 } 0x82 true) 2
      = some 0x0000190A := by decide

/-- V-VFS-3 beat 9: a payload byte is released and the comparison succeeds; V-VFS-7: `LenOverflow`. -/
theorem test_beat_slice :
    reads (afterBeat { inState .slice 2 with type := 0x74455874, crc := ~~~0x9642C585, crcRx := 0x414E9DAB, cnt := 8 }
      0xE1 true) 4 = some 1 ∧
    reads (afterBeat { inState .slice 2 with len := 0xFFFFFFFF, type := 0x52755374, crc := 0x2B7BF6C3, cnt := 8 }
      0x41 true) 2 = some 0x00002A0C := by decide

/-- V-GEN-5: `LenOverflow` drops the byte; V-GEN-6: the largest payload. -/
theorem test_beat_genr :
    reads (afterBeat { inState .genr 3 with len := 0xFFFFFFFF, type := 0x52755374, crc := 0x2B7BF6C3, cnt := 4 }
      0x41 false) 7 = some 0xD484093C ∧
    reads (afterBeat { inState .genr 3 with len := 0xFFFFFFFE, type := 0x52755374, crc := 0x2B7BF6C3, cnt := 4 }
      0x41 true) 7 = some 0xFC626605 := by decide

/-- V-LAB-2 beat 4: a digit in the label; V-LAB-6 beat 6: too long, `CNT` saturated. -/
theorem test_beat_labelr :
    reads (afterBeat { inState .labelr 4 with type := 0x00527531, cnt := 3 } 0x74 true) 3 = some 5 ∧
    reads (afterBeat { inState .labelr 4 with type := 0x52755374, cnt := 5 } 0x32 true) 9 = some 5 := by decide

/-- V-CTL-3 beats 2 and 3. -/
theorem test_beat_drainr :
    reads (afterBeat (inState .drainr 5) 2 false) 2 = some 0x00005801 ∧
    reads (afterBeat (inState .drainr 5) 3 true) 2 = some 0x0000590A := by decide

/-- V-VER-8, last line: a byte offered in ERROR waits at the port. -/
theorem test_offer_waits : after { inState .error 1 with err := 3 } .offer [⟨0xE1, true⟩] =
    some { inState .error 1 with err := 3 } := by decide

/-- 10_state.md R17's table: the eleven codes, as `STATUS[11:8]` reads them. -/
theorem test_state_codes :
    ([.idle, .lenf, .typef, .payld, .crcf, .slice, .genr, .labelr, .drainr, .done, .error] : List Machine.Seq).map
      (fun q => ((inState q 0).read 2).extractLsb' 8 4) = [0, 1, 2, 3, 4, 5, 6, 7, 8, 9, 10] := by decide

/-- V-CTL-6 rows 1, 2 and 6. -/
theorem test_irq :
    (after { inState .done 3 with eob := true } (.regWrite 1 1) []).map Block.irq = some true ∧
    (after { inState .done 3 with eob := true } (.regWrite 1 2) []).map Block.irq = some false ∧
    (after { inState .error 4 with err := 4, ieErr := true } (.regWrite 1 1) []).map Block.irq = some false := by decide

/-- V-TC-1 to V-TC-4 and V-TC-10 to V-TC-13. -/
theorem test_props_labels :
    props 0x52755374 = 0x3D ∧ props 0x52755354 = 0x35 ∧ props 0x52757374 = 0x29 ∧
    props 0x52753174 = 0x09 ∧ props 0x00000000 = 0x07 ∧ props 0xFFFFFFFF = 0x08 ∧
    props 0x405B607B = 0x0B ∧ props 0x415A617A = 0x2B := by decide

/-- V-TC-19 to V-TC-26 and V-TC-28: one byte differs. -/
theorem test_props_one_byte :
    props 0x61414141 = 0x36 ∧ props 0x41614141 = 0x35 ∧ props 0x41416141 = 0x23 ∧
    props 0x41414161 = 0x3F ∧ props 0x40414141 = 0x07 ∧ props 0x415B4141 = 0x07 ∧
    props 0x41416041 = 0x03 ∧ props 0x4141417B = 0x0F ∧ props 0x41C3A962 = 0x0B := by decide

/-- V-CRC-1. -/
theorem test_crcUpdate :
    crcUpdate 0xFFFFFFFF 0x00 = 0x2DFD1072 ∧ crcUpdate 0xFFFFFFFF 0x80 = 0xC0459352 ∧
    crcUpdate 0xFFFFFFFF 0xFF = 0x00FFFFFF ∧ crcUpdate 0xCFAC51CE 0x74 = 0x2B7BF6C3 ∧
    crcUpdate 0x80000000 0x00 = 0x00800000 := by decide +kernel

/-- V-CRC-2: "IEND", "tEXtA" and four bytes FF. -/
theorem test_crc32 :
    crc32 [0x49, 0x45, 0x4E, 0x44] = 0xAE426082 ∧ crc32 [0x74, 0x45, 0x58, 0x74, 0x41] = 0x4E9DABE1 ∧
    crc32 [0xFF, 0xFF, 0xFF, 0xFF] = 0xFFFFFFFF := by decide +kernel

/-- 42_generate.md R119 and V-GEN-4: the frame built from the registers is F-IEND. -/
theorem test_serialize :
    serialize { inState .done 3 with type := 0x49454E44, crc := ~~~0xAE426082, cnt := 4, eob := true } []
      = [0x00, 0x00, 0x00, 0x00, 0x49, 0x45, 0x4E, 0x44, 0xAE, 0x42, 0x60, 0x82] := by decide

/-! ## Witnesses: states and operands that meet the hypotheses of each statement -/

/-- A machine with one block, one event, and a source. -/
def mk (b : Block) (e : Event) (source : List Beat) : State :=
  { block := b, inputs := [e], source := source, returned := [] }

/-- What the step of a machine leaves (the machine itself if it stopped, which none does). -/
def next (s : State) : State :=
  match step s with
  | .next t => t
  | .fault _ => s
  | .refused _ => s

theorem step_next (s : State) : step s = .next (next s) := by
  unfold next
  cases h : s.inputs with
  | nil => rw [step_of_nil h]
  | cons e more => rw [step_of_cons h]

/-- The byte "A", unmarked. -/
def byteA : Beat := ⟨0x41, false⟩

theorem witness_ResetOverridesAndRestoresAll :
    ∃ p : Pins, p.rst = true ∧ p.regWe = true ∧ p.regRe = true ∧ p.inValid = true :=
  ⟨⟨true, 0, true, 1, true, true⟩, by decide⟩

theorem witness_RegisterMapReads : 10 ≤ (10 : RegIndex).toNat ∧ 10 ≤ (15 : RegIndex).toNat := by decide

theorem witness_ReadsHaveNoSideEffects : ∃ s : State, s.inputs = .regRead 2 :: [] :=
  ⟨mk (inState .done 3) (.regRead 2) [], rfl⟩

theorem witness_UnmappedAndReadOnlyWritesIgnored :
    (∀ i ∈ ([10, 15] : List RegIndex), ∃ s : State, s.inputs = .regRead i :: [] ∧ 10 ≤ i.toNat) ∧
    ∀ i ∈ ([2, 9, 10, 15] : List RegIndex), ∃ s : State, s.inputs = .regWrite i 0xFFFFFFFF :: [] ∧
      i ∈ ([2, 3, 4, 6, 7, 8, 9, 10, 11, 12, 13, 14, 15] : List RegIndex) :=
  ⟨fun i hi => ⟨mk inLenf (.regRead i) [], rfl, by revert i; decide⟩, fun i hi => ⟨mk inLenf (.regWrite i 0xFFFFFFFF) [], rfl, by revert i; decide⟩⟩

theorem witness_CtrlWrittenInEveryState : ∃ s : State, s.inputs = .regWrite 1 0xFFFFFFFF :: [] ∧ s.block.busy = true :=
  ⟨mk inLenf (.regWrite 1 0xFFFFFFFF) [], rfl, rfl⟩

/-- Each of the five, in IDLE, DONE and ERROR. -/
theorem witness_StreamCommandStartsWhenNotBusy :
    (∀ x ∈ ([(.verify 0, 1, .lenf, 0x00001101), (.verifys 0, 2, .slice, 0x00002501),
      (.gen 0, 3, .genr, 0x00003601), (.label 0, 4, .labelr, 0x00004701), (.drain 0, 5, .drainr, 0x00005801)] :
      List (Instr × Code × Machine.Seq × Word)),
      x ∈ ([(.verify 0, 1, .lenf, 0x00001101), (.verifys 0, 2, .slice, 0x00002501),
      (.gen 0, 3, .genr, 0x00003601), (.label 0, 4, .labelr, 0x00004701), (.drain 0, 5, .drainr, 0x00005801)] :
      List (Instr × Code × Machine.Seq × Word))) ∧
    (inState .idle 0).busy = false ∧ (inState .done 3).busy = false ∧ (inState .error 1).busy = false :=
  ⟨fun _ h => h, by decide⟩

theorem witness_StreamCommandRefusedWhileBusy :
    Instr.gen 0 ∈ [Instr.verify 0, .verifys 0, .gen 0, .label 0, .drain 0] ∧ inLenf.busy = true ∧
    (inState .drainr 5).busy = true := by decide

theorem witness_ClearRestoresAllButCtrl : (0 : RegIndex) ≠ 1 ∧ (15 : RegIndex) ≠ 1 := by decide

theorem witness_TypeWriteStoredOrRefused :
    (∃ s : State, s.inputs = .regWrite 5 0x52755374 :: []) ∧ (inState .error 4).busy = false ∧ inLenf.busy = true :=
  ⟨⟨mk inLenf (.regWrite 5 0x52755374) [], rfl⟩, rfl, rfl⟩

/-- The smallest and the largest reserved opcode. -/
theorem witness_ReservedOpcodeRefusedInEveryState :
    ∀ v ∈ ([0x00000007, 0x0000000F] : List Word), ∃ s : State, s.inputs = .regWrite 0 v :: [] ∧
      7 ≤ (opcodeOf v).toNat :=
  fun v hv => ⟨mk (inState .idle 0) (.regWrite 0 v) [], rfl, by simp at hv; rcases hv with rfl | rfl <;> decide⟩

theorem witness_CommandWordUpperBitsIgnored :
    (0xABCDEF03 : Word).extractLsb' 0 4 = (0x00000003 : Word).extractLsb' 0 4 := by decide

theorem witness_BeatInLengthField : ∃ s : State, s.block.state = .lenf ∧ s.source = ⟨0x41, false⟩ :: [] ∧
    s.inputs = .offer :: [] := ⟨mk inLenf .offer [byteA], rfl, rfl, rfl⟩
theorem witness_BeatInTypeField : ∃ s : State, s.block.state = .typef ∧ s.source = ⟨0x41, false⟩ :: [] ∧
    s.inputs = .offer :: [] := ⟨mk (inState .typef 1) .offer [byteA], rfl, rfl, rfl⟩
theorem witness_BeatInPayload : ∃ s : State, s.block.state = .payld ∧ s.source = ⟨0x41, false⟩ :: [] ∧
    s.inputs = .offer :: [] := ⟨mk (inState .payld 1) .offer [byteA], rfl, rfl, rfl⟩
theorem witness_BeatInChecksumField : ∃ s : State, s.block.state = .crcf ∧ s.source = ⟨0x41, false⟩ :: [] ∧
    s.inputs = .offer :: [] := ⟨mk (inState .crcf 1) .offer [byteA], rfl, rfl, rfl⟩
theorem witness_BeatInLabel : ∃ s : State, s.block.state = .labelr ∧ s.source = ⟨0x41, false⟩ :: [] ∧
    s.inputs = .offer :: [] := ⟨mk (inState .labelr 4) .offer [byteA], rfl, rfl, rfl⟩
theorem witness_BeatInDrain : ∃ s : State, s.block.state = .drainr ∧ s.source = ⟨0x41, false⟩ :: [] ∧
    s.inputs = .offer :: [] := ⟨mk (inState .drainr 5) .offer [byteA], rfl, rfl, rfl⟩

/-- Both clauses: at the overflow, and one payload byte before it. -/
theorem witness_BeatInSlice : ∀ len ∈ ([0xFFFFFFFF, 0xFFFFFFFE] : List Word),
    ∃ s : State, s.block.state = .slice ∧ s.source = ⟨0x41, false⟩ :: [] ∧ s.inputs = .offer :: [] ∧
      (len = 0xFFFFFFFF ↔ 8 ≤ s.block.cnt.toNat ∧ s.block.len = 0xFFFFFFFF) :=
  fun len h => ⟨mk { inState .slice 2 with cnt := 8, len := len } .offer [byteA], rfl, rfl, rfl, by
    rcases List.mem_cons.mp h with rfl | h
    · decide +kernel
    · rcases List.mem_singleton.mp h with rfl
      decide +kernel⟩

/-- Both clauses: at the overflow, and one payload byte before it. -/
theorem witness_BeatInGenerate : ∀ len ∈ ([0xFFFFFFFF, 0xFFFFFFFE] : List Word),
    ∃ s : State, s.block.state = .genr ∧ s.source = ⟨0x41, false⟩ :: [] ∧ s.inputs = .offer :: [] ∧
      (len = 0xFFFFFFFF ↔ 4 ≤ s.block.cnt.toNat ∧ s.block.len = 0xFFFFFFFF) :=
  fun len h => ⟨mk { inState .genr 3 with cnt := 4, len := len } .offer [byteA], rfl, rfl, rfl, by
    rcases List.mem_cons.mp h with rfl | h
    · decide +kernel
    · rcases List.mem_singleton.mp h with rfl
      decide +kernel⟩

/-- A cycle that offers a byte, with the block BUSY after the access and not. -/
theorem witness_ByteConsumedExactlyWhenBusy :
    ∃ p : Pins, p.rst = false ∧ p.inValid = true ∧
      (∃ s a : State, runEvents p.access s = .next a ∧ a.block.busy = true) ∧
      (∃ s a : State, runEvents p.access s = .next a ∧ a.block.busy = false) :=
  ⟨⟨false, 0, false, 0, false, true⟩, rfl, rfl, ⟨mk inLenf .offer [byteA], _, rfl, rfl⟩,
    ⟨mk (inState .done 1) .offer [byteA], _, rfl, rfl⟩⟩

theorem witness_ErrorEntryIsPrecise :
    ∃ s t : State, step s = .next t ∧ s.block.state ≠ .error ∧ t.block.state = .error :=
  ⟨mk inLenf .offer [⟨0, true⟩], _, step_next _, by decide, by decide⟩

theorem witness_NotBusyStatesPersist :
    ∃ (s t : State) (e : Event), s.inputs = e :: [] ∧ step s = .next t ∧
      s.block.busy = false ∧ ¬e.clears ∧ ¬e.streamCommand :=
  ⟨mk (inState .error 1) .offer [byteA], _, .offer, rfl, step_next _, rfl, id, id⟩

theorem witness_NoTimeOutWhileBusy :
    ∃ (evs : List Event) (s t : State), s.block.busy = true ∧ s.source = [] ∧
      (∀ e ∈ evs, e = .offer ∨ (∃ i, e = .regRead i) ∨ ∃ v, e = .regWrite 0 v ∧ opcodeOf v = 0) ∧
      s.inputs = evs ∧ evs ≠ [] ∧ runSteps evs.length s = .next t :=
  ⟨[.offer], mk inLenf .offer [], next (mk inLenf .offer []), rfl, rfl, fun e h => .inl (by simpa using h), rfl,
    by decide, by rw [List.length_singleton, runSteps_succ 0 (step_next _), runSteps_zero]⟩

/-- A run that ends in ERROR, and one that does not. -/
theorem witness_ErrAlwaysALegalCode :
    (∃ t : State, runSteps 2 (State.resetWith [.regWrite 0 1, .offer] [⟨0, true⟩]) = .next t ∧ t.block.state = .error) ∧
    ∃ t : State, runSteps 1 (State.resetWith [.regWrite 0 1] []) = .next t ∧ t.block.state ≠ .error :=
  ⟨⟨_, rfl, rfl⟩, ⟨_, rfl, by decide⟩⟩

/-- A failed VERIFY that a marked first byte ended. -/
def failed : Block := { inState .error 1 with cnt := 1, err := 2, eob := true }

theorem failed_inv : failed.Inv := by
  constructor
  · show (1 : Code) = 1 ∨ _
    exact .inl rfl
  · exact .inl ⟨rfl, .inl rfl⟩
  · trivial
  · exact .inr (.inr rfl)
  · exact ⟨fun h => absurd h (by decide), fun h => absurd h (by decide), fun _ => rfl⟩

/-- A VERIFY that has just started. -/
theorem started_inv : (inState .lenf 1).Inv :=
  ⟨rfl, rfl, by show (0 : Word).toNat < 4; decide, rfl, ⟨rfl, rfl, rfl⟩⟩

theorem witness_StatusFlagsExclusive : ∃ b : Block, b.Inv ∧ b.isError = true := ⟨failed, failed_inv, rfl⟩

theorem witness_IrqIsALevelOfState :
    (∃ s t : State, step s = .next t ∧ s.inputs = .regRead 2 :: [] ∧ t.block.state = .done) ∧
    (∃ s t : State, step s = .next t ∧ t.block.state = .error) ∧
    ∃ s t : State, step s = .next t ∧ t.block.state ≠ .done ∧ t.block.state ≠ .error :=
  ⟨⟨mk (inState .done 3) (.regRead 2) [], _, step_next _, rfl, rfl⟩,
    ⟨mk failed (.regRead 2) [], _, step_next _, rfl⟩,
    ⟨mk inLenf (.regRead 2) [], _, step_next _, by decide, by decide⟩⟩

theorem witness_StateFollowsTransitionTable :
    ∃ (s t : State) (e : Event), s.block.Inv ∧ s.inputs = e :: [] ∧ step s = .next t :=
  ⟨mk (inState .lenf 1) .offer [byteA], _, .offer, started_inv, rfl, step_next _⟩

/-- Each of the three refused writes, and both clearing events. -/
theorem witness_CmderrSetAndClearedOnlyBy :
    (∀ e ∈ ([.regWrite 0 1, .regWrite 0 5, .regWrite 0 7, .regWrite 0 15, .regWrite 5 0] : List Event),
      ∃ s t : State, s.inputs = e :: [] ∧ step s = .next t ∧ e.refusedBy s.block) ∧
    ∀ e ∈ ([.reset, .regWrite 0 6] : List Event), ∃ s t : State, s.inputs = e :: [] ∧ step s = .next t ∧ e.clears := by
  constructor
  · intro e he
    refine ⟨mk inLenf e [], _, rfl, step_next _, ?_⟩
    simp only [List.mem_cons, List.not_mem_nil, or_false] at he
    rcases he with rfl | rfl | rfl | rfl | rfl
    · exact .inl ⟨rfl, by decide, by decide, rfl⟩
    · exact .inl ⟨rfl, by decide, by decide, rfl⟩
    · exact .inr (.inl ⟨rfl, by decide⟩)
    · exact .inr (.inl ⟨rfl, by decide⟩)
    · exact .inr (.inr ⟨rfl, rfl⟩)
  · intro e he
    refine ⟨mk inLenf e [], _, rfl, step_next _, ?_⟩
    simp only [List.mem_cons, List.not_mem_nil, or_false] at he
    rcases he with rfl | rfl
    · trivial
    · exact ⟨rfl, by decide⟩

/-- A beat, a clearing event, a start (opcodes 1 and 5) and an event that does none of these. -/
theorem witness_EobWrittenOnlyBy :
    (∃ s t : State, s.inputs = .offer :: [] ∧ step s = .next t ∧ s.source = byteA :: [] ∧ s.block.busy = true) ∧
    (∃ s t : State, s.inputs = .reset :: [] ∧ step s = .next t ∧ Event.reset.clears) ∧
    (∀ v ∈ ([1, 5] : List Word), ∃ s t : State, s.inputs = .regWrite 0 v :: [] ∧ step s = .next t ∧
      (Event.regWrite 0 v).streamCommand ∧ s.block.busy = false) ∧
    ∃ s t : State, s.inputs = .offer :: [] ∧ step s = .next t ∧ ¬Event.offer.clears ∧
      (Event.offer.streamCommand → s.block.busy = true) ∧ (s.source = [] ∨ s.block.busy = false) := by
  refine ⟨⟨mk inLenf .offer [byteA], _, rfl, step_next _, rfl, rfl⟩, ⟨mk inLenf .reset [], _, rfl, step_next _, trivial⟩,
    ?_, ⟨mk inLenf .offer [], _, rfl, step_next _, id, fun h => h.elim, .inl rfl⟩⟩
  intro v hv
  refine ⟨mk (inState .done 1) (.regWrite 0 v) [], _, rfl, step_next _, ?_, rfl⟩
  simp only [List.mem_cons, List.not_mem_nil, or_false] at hv
  rcases hv with rfl | rfl <;> exact ⟨rfl, by decide, by decide⟩

/-- An accepted VERIFY, a CLEAR, and a stream command refused while BUSY. -/
theorem witness_OpWrittenOnlyBy :
    (∃ s t : State, s.inputs = .regWrite 0 1 :: [] ∧ step s = .next t ∧ 1 ≤ (opcodeOf 1).toNat ∧
      (opcodeOf 1).toNat ≤ 5 ∧ s.block.busy = false) ∧
    (∃ s t : State, s.inputs = .regWrite 0 6 :: [] ∧ step s = .next t ∧ (Event.regWrite 0 6).clears) ∧
    ∃ s t : State, s.inputs = .regWrite 0 1 :: [] ∧ step s = .next t ∧ ¬(Event.regWrite 0 1).clears ∧
      ((Event.regWrite 0 1).streamCommand → s.block.busy = true) :=
  ⟨⟨mk (inState .idle 0) (.regWrite 0 1) [], _, rfl, step_next _, by decide, by decide, rfl⟩,
    ⟨mk inLenf (.regWrite 0 6) [], _, rfl, step_next _, rfl, by decide⟩,
    ⟨mk inLenf (.regWrite 0 1) [], _, rfl, step_next _, fun h => absurd h.2 (by decide), fun _ => rfl⟩⟩

/-- A TYPE write while BUSY, and a CLEAR. -/
theorem witness_DataRegistersWrittenOnlyBy :
    (∃ s t : State, s.inputs = .regWrite 5 7 :: [] ∧ step s = .next t ∧ ¬(Event.regWrite 5 7).clears ∧
      ((Event.regWrite 5 7).streamCommand → s.block.busy = true) ∧ s.block.busy = true ∧ Event.regWrite 5 7 ≠ .offer) ∧
    ∃ s t : State, s.inputs = .regWrite 0 6 :: [] ∧ step s = .next t ∧ Event.regWrite 0 6 ≠ .reset ∧
      ∀ v, Event.regWrite 0 6 ≠ .regWrite 1 v :=
  ⟨⟨mk inLenf (.regWrite 5 7) [], _, rfl, step_next _, fun h => absurd h.1 (by decide), fun _ => rfl, rfl, by decide⟩,
    ⟨mk inLenf (.regWrite 0 6) [], _, rfl, step_next _, by decide, fun v h => by injection h with h; exact absurd h (by decide)⟩⟩

/-- Each instruction answers a next state, from a BUSY state and from one that is not. -/
theorem witness_InstructionFrames :
    ∀ i ∈ ([.nop 0, .verify 0, .verifys 0, .gen 0, .label 0, .drain 0, .clear 0, .wrCtrl true false 0, .wrType 1 2 3 4] :
      List Instr), (∃ s t : State, exec i s = .next t ∧ s.block.busy = true) ∧
        ∃ s t : State, exec i s = .next t ∧ s.block.busy = false := by
  intro i _
  cases i <;> exact ⟨⟨mk inLenf .offer [], _, rfl, rfl⟩, ⟨mk (inState .done 1) .offer [], _, rfl, rfl⟩⟩

theorem witness_StepKeepsInvariant : ∃ s t : State, s.block.Inv ∧ step s = .next t ∧ s ≠ t :=
  ⟨mk (inState .lenf 1) .offer [byteA], _, started_inv, step_next _, by decide⟩

theorem witness_LastByteEndsEveryCommand :
    ∃ s t : State, s.block.busy = true ∧ s.inputs = .offer :: [] ∧ s.source = ⟨0x41, true⟩ :: [] ∧ step s = .next t :=
  ⟨mk inLenf .offer [⟨0x41, true⟩], _, rfl, rfl, rfl, step_next _⟩

/-- The four letters at the ends of the ranges, and each of the four bytes just outside them beside three letters. -/
theorem witness_PropsBitsDecodeType :
    ∀ x ∈ ([(0x415A617A, true), (0x405A617A, false), (0x415B617A, false), (0x415A607A, false),
      (0x415A617B, false)] : List (Word × Bool)), ∃ b : Block, b.type = x.1 ∧
      (x.2 = true ↔ ∀ d ∈ ([x.1.extractLsb' 24 8, x.1.extractLsb' 16 8, x.1.extractLsb' 8 8, x.1.extractLsb' 0 8] : List Byte),
        (0x41 ≤ d.toNat ∧ d.toNat ≤ 0x5A) ∨ (0x61 ≤ d.toNat ∧ d.toNat ≤ 0x7A)) :=
  fun x hx => ⟨{ Block.afterReset with type := x.1 }, rfl, by
    simp only [List.mem_cons, List.not_mem_nil, or_false] at hx
    rcases hx with rfl | rfl | rfl | rfl | rfl <;> decide⟩

theorem witness_CrcCalcIsCrcOfBytesFed :
    ∃ (s t : State) (fed : List Byte), s.block.read 7 = crc32 fed ∧ step s = .next t ∧ fed ≠ [] :=
  ⟨mk { inState .typef 1 with crc := crcFeed 0xFFFFFFFF [0x74], cnt := 1 } .offer [byteA], _, [0x74], by decide,
    step_next _, by decide⟩

theorem witness_CrcDetectsOneByteChange : (0x74 : Byte) ≠ 0x54 := by decide

/-! ### Witnesses for the statements about whole commands -/

/-- `k` unmarked bytes and a marked one. -/
def markedAt (k : Nat) : List Beat := List.replicate k ⟨0, false⟩ ++ [⟨0, true⟩]

theorem firstLast_markedAt (k : Nat) : firstLast (markedAt k) = some k := by
  induction k with
  | zero => rfl
  | succ k ih =>
    have h : markedAt (k + 1) = ⟨0, false⟩ :: markedAt k := rfl
    rw [h]
    simp only [firstLast, List.findIdx?_cons] at ih ⊢
    rw [ih]
    rfl

theorem firstLast_unmarked (k : Nat) : firstLast (List.replicate k ⟨0, false⟩) = none := by
  rw [firstLast, List.findIdx?_eq_none_iff]
  intro x hx
  rw [List.eq_of_mem_replicate hx]

/-- Nothing marked among the first bytes of an unmarked string. -/
theorem take_unmarked (k n : Nat) : ∀ x ∈ (List.replicate k (⟨0, false⟩ : Beat)).take n, x.last = false :=
  fun x hx => by rw [List.eq_of_mem_replicate (List.mem_of_mem_take hx)]

/-- An idle machine with a source. -/
def idleWith (source : List Beat) : State := { State.reset with source := source }

/-- A source of `k` bytes, none marked. -/
theorem long_source (i : Instr) (k n : Nat) : ∃ s t : State, s.block.busy = false ∧ exec i s = .next t ∧
    k ≤ s.source.length ∧ ∀ x ∈ s.source.take n, x.last = false := by
  refine ⟨idleWith (List.replicate k ⟨0, false⟩), ?_⟩
  cases i <;>
    exact ⟨_, rfl, rfl, by show k ≤ (List.replicate k _).length; rw [List.length_replicate], take_unmarked k n⟩

/-- The clauses: a mark at byte 1, at byte 4 and at the last but one of a 12-byte frame; a whole one; one byte less. -/
theorem witness_VerifyWholeFrame :
    (∃ s t : State, s.block.busy = false ∧ exec (.verify 0) s = .next t ∧ firstLast s.source = some 0) ∧
    (∃ s t : State, s.block.busy = false ∧ exec (.verify 0) s = .next t ∧ firstLast s.source = some 3) ∧
    (∃ s t : State, s.block.busy = false ∧ exec (.verify 0) s = .next t ∧ firstLast s.source = some 10 ∧
      10 < 12 + (be32Of (s.source.map Beat.data)).toNat - 1) ∧
    (∃ s t : State, s.block.busy = false ∧ exec (.verify 0) s = .next t ∧
      12 + (be32Of (s.source.map Beat.data)).toNat ≤ s.source.length ∧
      ∀ x ∈ s.source.take (12 + (be32Of (s.source.map Beat.data)).toNat - 1), x.last = false) ∧
    ∃ s t : State, s.block.busy = false ∧ exec (.verify 0) s = .next t ∧
      s.source.length < 12 + (be32Of (s.source.map Beat.data)).toNat ∧ firstLast s.source = none :=
  ⟨⟨idleWith (markedAt 0), _, rfl, rfl, by decide⟩, ⟨idleWith (markedAt 3), _, rfl, rfl, by decide⟩,
    ⟨idleWith (markedAt 10), _, rfl, rfl, by decide, by decide⟩,
    ⟨idleWith (markedAt 11), _, rfl, rfl, by decide, by decide⟩,
    ⟨idleWith (List.replicate 11 ⟨0, false⟩), _, rfl, rfl, by decide, by decide⟩⟩

/-- The clauses at `n` = 1, 7, 8 and 2^32 + 7, the overflow, and a slice that goes on. -/
theorem witness_VerifysWholeSlice :
    (∀ n ∈ [1, 7, 8, 0xFFFFFFFF + 8], ∃ s t : State, s.block.busy = false ∧ exec (.verifys 0) s = .next t ∧
      firstLast s.source = some (n - 1)) ∧
    (∃ s t : State, s.block.busy = false ∧ exec (.verifys 0) s = .next t ∧ 2 ^ 32 + 8 ≤ s.source.length ∧
      ∀ x ∈ s.source.take (2 ^ 32 + 7), x.last = false) ∧
    ∃ s t : State, s.block.busy = false ∧ exec (.verifys 0) s = .next t ∧ s.source.length < 2 ^ 32 + 8 ∧
      firstLast s.source = none :=
  ⟨fun n _ => ⟨idleWith (markedAt (n - 1)), _, rfl, rfl, firstLast_markedAt _⟩,
    long_source (.verifys 0) (2 ^ 32 + 8) (2 ^ 32 + 7),
    ⟨idleWith [], _, rfl, rfl, by decide, rfl⟩⟩

/-- The clauses at `n` = 1, 3, 4 and 2^32 + 3, the overflow, and an input that goes on. -/
theorem witness_GenWholeInput :
    (∀ n ∈ [1, 3, 4, 0xFFFFFFFF + 4], ∃ s t : State, s.block.busy = false ∧ exec (.gen 0) s = .next t ∧
      firstLast s.source = some (n - 1)) ∧
    (∃ s t : State, s.block.busy = false ∧ exec (.gen 0) s = .next t ∧ 2 ^ 32 + 4 ≤ s.source.length ∧
      ∀ x ∈ s.source.take (2 ^ 32 + 3), x.last = false) ∧
    ∃ s t : State, s.block.busy = false ∧ exec (.gen 0) s = .next t ∧ s.source.length < 2 ^ 32 + 4 ∧
      firstLast s.source = none :=
  ⟨fun n _ => ⟨idleWith (markedAt (n - 1)), _, rfl, rfl, firstLast_markedAt _⟩,
    long_source (.gen 0) (2 ^ 32 + 4) (2 ^ 32 + 3),
    ⟨idleWith [], _, rfl, rfl, by decide, rfl⟩⟩

/-- Three bytes, four letters, four bytes with a digit, five bytes, and a label that goes on. -/
theorem witness_LabelWholeInput :
    (∃ s t : State, s.block.busy = false ∧ exec (.label 0) s = .next t ∧ firstLast s.source = some 2) ∧
    (∃ s t : State, s.block.busy = false ∧ exec (.label 0) s = .next t ∧ firstLast s.source = some 3 ∧
      ∀ d ∈ (s.source.map Beat.data).take 4, (0x41 ≤ d.toNat ∧ d.toNat ≤ 0x5A) ∨ (0x61 ≤ d.toNat ∧ d.toNat ≤ 0x7A)) ∧
    (∃ s t : State, s.block.busy = false ∧ exec (.label 0) s = .next t ∧ firstLast s.source = some 3 ∧
      ∃ d ∈ (s.source.map Beat.data).take 4,
        ¬((0x41 ≤ d.toNat ∧ d.toNat ≤ 0x5A) ∨ (0x61 ≤ d.toNat ∧ d.toNat ≤ 0x7A))) ∧
    (∃ s t : State, s.block.busy = false ∧ exec (.label 0) s = .next t ∧ firstLast s.source = some 4) ∧
    ∃ s t : State, s.block.busy = false ∧ exec (.label 0) s = .next t ∧ firstLast s.source = none :=
  ⟨⟨idleWith (markedAt 2), _, rfl, rfl, by decide⟩,
    ⟨idleWith (markLast [0x52, 0x75, 0x53, 0x74]), _, rfl, rfl, by decide, by decide⟩,
    ⟨idleWith (markLast [0x52, 0x75, 0x31, 0x74]), _, rfl, rfl, by decide, by decide⟩,
    ⟨idleWith (markedAt 4), _, rfl, rfl, by decide⟩, ⟨idleWith [byteA], _, rfl, rfl, by decide⟩⟩

/-- A buffer that ends, one that goes on, and one with no byte at all. -/
theorem witness_DrainWholeBuffer :
    (∃ s t : State, s.block.busy = false ∧ exec (.drain 0) s = .next t ∧ firstLast s.source = some 2) ∧
    (∃ s t : State, s.block.busy = false ∧ exec (.drain 0) s = .next t ∧ firstLast s.source = none ∧ s.source ≠ []) ∧
    ∃ s t : State, s.block.busy = false ∧ exec (.drain 0) s = .next t ∧ firstLast s.source = none ∧ s.source = [] :=
  ⟨⟨idleWith (markLast [1, 2, 3]), _, rfl, rfl, by decide⟩, ⟨idleWith [byteA], _, rfl, rfl, by decide, by decide⟩,
    ⟨idleWith [], _, rfl, rfl, by decide, rfl⟩⟩

/-- An idle machine, and the smallest and the largest payload. -/
theorem witness_SliceAndFrameAgree :
    ∀ n ∈ [0, 0xFFFFFFFF], ∃ (s : State) (payload : List Byte),
      s.block.busy = false ∧ payload.length = n ∧ payload.length ≤ 0xFFFFFFFF := by
  intro n hn
  refine ⟨State.reset, List.replicate n 0, rfl, List.length_replicate, ?_⟩
  rw [List.length_replicate]
  simp only [List.mem_cons, List.not_mem_nil, or_false] at hn
  omega

/-- One payload byte "T" that was sent as "U" (V-VER-5). -/
theorem witness_ChecksumIntegrity :
    ∃ (s : State) (type type' crc : Word) (payload payload' before after : List Byte) (d e : Byte),
      s.block.busy = false ∧ payload.length ≤ 0xFFFFFFFF ∧ crc = crc32 (bytesOf type' ++ payload') ∧
      payload'.length = payload.length ∧ bytesOf type' ++ payload' = before ++ d :: after ∧
      bytesOf type ++ payload = before ++ e :: after ∧ d ≠ e :=
  ⟨State.reset, 0x52755374, 0x52755374, _, [0x55], [0x54], bytesOf 0x52755374, [], 0x54, 0x55, rfl, by decide, rfl, rfl,
    rfl, rfl, by decide⟩

theorem witness_GenSerializeVerifyRoundTrip :
    ∃ (s : State) (payload : List Byte), s.block.busy = false ∧ payload.length ≤ 0xFFFFFFFF ∧ payload ≠ [] :=
  ⟨State.reset, [0x41], rfl, by decide, by decide⟩

/-- The two frames of P1: F-TEXT and F-IEND. -/
theorem witness_BufferOfFramesParsedInOrder :
    ∃ (s : State) (recs : List (Word × List Byte)), s.block.busy = false ∧ recs ≠ [] ∧
      (∀ r ∈ recs, r.2.length ≤ 0xFFFFFFFF) ∧
      s.source = markLast (recs.flatMap fun r =>
        frameOf (BitVec.ofNat 32 r.2.length) r.1 r.2 (crc32 (bytesOf r.1 ++ r.2))) :=
  ⟨idleWith (markLast ([(0x74455874, [0x41]), (0x49454E44, [])].flatMap fun r : Word × List Byte =>
      frameOf (BitVec.ofNat 32 r.2.length) r.1 r.2 (crc32 (bytesOf r.1 ++ r.2)))),
    [(0x74455874, [0x41]), (0x49454E44, [])], rfl, by decide, by decide, rfl⟩

/-- A stream command (opcodes 1 and 5) and a CLEAR in a cycle that offers a byte. -/
theorem witness_ClockCycleIsItsEventsInOrder :
    (∀ v ∈ ([1, 5] : List Word), ∃ (p : Pins) (s : State), p.rst = false ∧ p.regWe = true ∧ p.inValid = true ∧
      p.regAddr = 0 ∧ p.regWdata = v ∧ s.source = byteA :: [] ∧ 1 ≤ (opcodeOf v).toNat ∧ (opcodeOf v).toNat ≤ 5 ∧
      s.block.busy = false) ∧
    ∃ (p : Pins) (s : State), p.rst = false ∧ p.regWe = true ∧ p.inValid = true ∧ p.regAddr = 0 ∧
      s.source = byteA :: [] ∧ (opcodeOf p.regWdata).toNat = 6 :=
  ⟨fun v hv => ⟨⟨false, 0, true, v, false, true⟩, idleWith [byteA], rfl, rfl, rfl, rfl, rfl, rfl,
      by simp at hv; rcases hv with rfl | rfl <;> decide, by simp at hv; rcases hv with rfl | rfl <;> decide, rfl⟩,
    ⟨⟨false, 0, true, 6, false, true⟩, idleWith [byteA], rfl, rfl, rfl, rfl, rfl, by decide⟩⟩

theorem witness_ReadBeforeWriteInOneCycle : ∃ p : Pins, p.rst = false ∧ p.regRe = true ∧ p.regWe = true :=
  ⟨⟨false, 5, true, 7, true, false⟩, rfl, rfl, rfl⟩

/-- Each clause: an instruction, the first reserved opcode, the first unmapped index. -/
theorem witness_EncodeOfDecode :
    decodeWrite 0 0x00000006 = .instr (.clear 0) ∧ 7 ≤ (opcodeOf 0x00000007).toNat ∧
    ((10 : RegIndex) ≠ 0 ∧ (10 : RegIndex) ≠ 1 ∧ (10 : RegIndex) ≠ 5) := by decide

theorem witness_StepRunsDecodedInstruction :
    ∃ s : State, s.inputs = .regWrite 0 0x00000006 :: [] ∧ decodeWrite 0 0x00000006 = .instr (.clear 0) :=
  ⟨mk inLenf (.regWrite 0 0x00000006) [], rfl, by decide⟩

end Sys2Proof.Tests.Slice0
end

section
/-! SUPPORT. Proofs of the statements about the state (10_state.md): what each kind of register write and event does, the
words the registers read as, and the invariant state by state. -/

namespace Sys2Proof.Machine

/-! ## Register writes by kind -/

/-- The six kinds of register write: CLEAR, an accepted stream command, a refused write, `CTRL`, a stored `TYPE`, and a
write without effect (10_state.md R20, R28, R36, 30_encoding.md R67). -/
theorem writeEffect_cases (i : RegIndex) (v : Word) (b : Block) :
    (i = 0 ∧ (opcodeOf v).toNat = 6 ∧ writeEffect i v b = b.clear) ∨
    (i = 0 ∧ 1 ≤ (opcodeOf v).toNat ∧ (opcodeOf v).toNat ≤ 5 ∧ b.busy = false ∧
      writeEffect i v b = { b.forget with op := opcodeOf v, state := entryOf (opcodeOf v) }) ∨
    ((Event.regWrite i v).refusedBy b ∧ writeEffect i v b = b.refuse) ∨
    (i = 1 ∧ writeEffect i v b = b.writeCtrl (v.getLsbD 0) (v.getLsbD 1)) ∨
    (i = 5 ∧ b.busy = false ∧ writeEffect i v b = { b with type := v }) ∨
    (((i = 0 ∧ (opcodeOf v).toNat = 0) ∨ (i ≠ 0 ∧ i ≠ 1 ∧ i ≠ 5)) ∧ writeEffect i v b = b) := by
  by_cases h0 : i = 0
  · subst h0
    rw [writeEffect_cmd]
    rcases opcode_cases (opcodeOf v) with hnop | ⟨h1, h5⟩ | hclear | h7
    · simp [hnop]
    · cases hb : b.busy
      · exact .inr (.inl ⟨rfl, h1, h5, rfl, commandEffect_start h1 h5 hb⟩)
      · exact .inr (.inr (.inl ⟨.inl ⟨rfl, h1, h5, hb⟩, commandEffect_busy h1 h5 hb⟩))
    · simp [hclear]
    · exact .inr (.inr (.inl ⟨.inr (.inl ⟨rfl, h7⟩), commandEffect_reserved b h7⟩))
  · by_cases h1 : i = 1
    · subst h1
      exact .inr (.inr (.inr (.inl ⟨rfl, writeEffect_ctrl v b⟩)))
    · by_cases h5 : i = 5
      · subst h5
        rw [writeEffect_type]
        cases hb : b.busy
        · exact .inr (.inr (.inr (.inr (.inl ⟨rfl, rfl, Block.writeType_of_not_busy v hb⟩))))
        · exact .inr (.inr (.inl ⟨.inr (.inr ⟨rfl, hb⟩), Block.writeType_of_busy v hb⟩))
      · exact .inr (.inr (.inr (.inr (.inr ⟨.inr ⟨h0, h1, h5⟩, writeEffect_other v b h0 h1 h5⟩))))

theorem writeEffect_clears {i : RegIndex} {v : Word} (b : Block) (h : (Event.regWrite i v).clears) :
    writeEffect i v b = b.clear := by
  obtain ⟨rfl, h6⟩ := h
  have h6 : opcodeOf v = 6 := BitVec.eq_of_toNat_eq h6
  rw [writeEffect_cmd, h6, commandEffect_clear]

theorem writeEffect_refused {i : RegIndex} {v : Word} {b : Block} (h : (Event.regWrite i v).refusedBy b) :
    writeEffect i v b = b.refuse := by
  rcases h with ⟨rfl, h1, h5, hb⟩ | ⟨rfl, h7⟩ | ⟨rfl, hb⟩
  · exact commandEffect_busy h1 h5 hb
  · exact commandEffect_reserved b h7
  · exact Block.writeType_of_busy v hb

/-- A write that neither clears nor starts a command changes `TYPE`, `CMDERR` and `CTRL` at most. -/
theorem writeEffect_quiet {i : RegIndex} {v : Word} {b : Block} (hc : ¬(Event.regWrite i v).clears)
    (hs : (Event.regWrite i v).streamCommand → b.busy = true) :
    writeEffect i v b =
      { b with
        type := if i = 5 ∧ b.busy = false then v else b.type
        cmderr := (writeEffect i v b).cmderr
        ieDone := (writeEffect i v b).ieDone
        ieErr := (writeEffect i v b).ieErr } := by
  rcases writeEffect_cases i v b with
    ⟨hi, h6, -⟩ | ⟨hi, h1, h5, hb, -⟩ | ⟨hr, hw⟩ | ⟨rfl, hw⟩ | ⟨rfl, hb, hw⟩ | ⟨h, hw⟩
  · exact absurd ⟨hi, h6⟩ hc
  · simp [hs ⟨hi, h1, h5⟩] at hb
  · have hi : ¬(i = 5 ∧ b.busy = false) := by
      rintro ⟨rfl, hb⟩
      simp [Event.refusedBy, hb] at hr
    rw [hw, if_neg hi]
    rfl
  · rw [hw]
    rfl
  · rw [hw, if_pos ⟨rfl, hb⟩]
  · have hi : ¬(i = 5 ∧ b.busy = false) := by
      rintro ⟨rfl, -⟩
      simp at h
    rw [hw, if_neg hi]

theorem writeEffect_cmderr {i : RegIndex} {v : Word} {b : Block} (hr : ¬(Event.regWrite i v).refusedBy b)
    (hc : ¬(Event.regWrite i v).clears) : (writeEffect i v b).cmderr = b.cmderr := by
  rcases writeEffect_cases i v b with ⟨hi, h6, -⟩ | ⟨-, -, -, -, hw⟩ | ⟨h, -⟩ | ⟨-, hw⟩ | ⟨-, -, hw⟩ | ⟨-, hw⟩
  · exact absurd ⟨hi, h6⟩ hc
  · rw [hw]; rfl
  · exact absurd h hr
  · rw [hw]; rfl
  · rw [hw]
  · rw [hw]

/-- `CTRL` is written through register 1 alone. -/
theorem writeEffect_ctrl_frame {i : RegIndex} (v : Word) (b : Block) (hi : i ≠ 1) :
    (writeEffect i v b).ieDone = b.ieDone ∧ (writeEffect i v b).ieErr = b.ieErr := by
  rcases writeEffect_cases i v b with ⟨-, -, hw⟩ | ⟨-, -, -, -, hw⟩ | ⟨-, hw⟩ | ⟨h, -⟩ | ⟨-, -, hw⟩ | ⟨-, hw⟩
  case inr.inr.inr.inl => exact absurd h hi
  all_goals
    rw [hw]
    exact ⟨rfl, rfl⟩

/-! ## Events by kind -/

theorem step_of_cons_eq {s t : State} {e : Event} {more : List Event} (hi : s.inputs = e :: more)
    (h : step s = .next t) : t = eventEffect e { s with inputs := more } := by
  rw [step_of_cons hi] at h
  exact (Host.Outcome.next.inj h).symm

theorem State.takeOffer_of_waiting {s : State} (h : s.source = [] ∨ s.block.busy = false) : s.takeOffer = s :=
  h.elim State.takeOffer_of_nil State.takeOffer_of_not_busy

/-- CLEAR and reset leave the reset values, `CTRL` apart. -/
theorem eventEffect_clears {e : Event} (s : State) (h : e.clears) :
    ∃ ieDone ieErr : Bool,
      (eventEffect e s).block = { Block.afterReset with ieDone := ieDone, ieErr := ieErr } := by
  cases e with
  | reset => exact ⟨false, false, rfl⟩
  | regWrite i v => exact ⟨s.block.ieDone, s.block.ieErr, writeEffect_clears s.block h⟩
  | _ => exact h.elim

/-- An accepted stream command. -/
theorem eventEffect_start {e : Event} {s : State} (h : e.streamCommand) (hb : s.block.busy = false) :
    ∃ op : Code, (eventEffect e s).block = { s.block.forget with op := op, state := entryOf op } := by
  cases e with
  | regWrite i v =>
    obtain ⟨rfl, h1, h5⟩ := h
    exact ⟨opcodeOf v, commandEffect_start h1 h5 hb⟩
  | _ => exact h.elim

/-- An event that is no CLEAR, no reset, no accepted stream command and no beat consumes no byte and changes `TYPE`,
`CMDERR` and `CTRL` at most; `TYPE` only by a write to register 5 when not BUSY. -/
theorem eventEffect_quiet {e : Event} {s : State} (hc : ¬e.clears) (hs : e.streamCommand → s.block.busy = true)
    (ho : e = .offer → s.source = [] ∨ s.block.busy = false) :
    (eventEffect e s).source = s.source ∧
      ∃ (type : Word) (cmderr ieDone ieErr : Bool),
        (eventEffect e s).block =
          { s.block with type := type, cmderr := cmderr, ieDone := ieDone, ieErr := ieErr } ∧
        ((∀ v, e = .regWrite 5 v → s.block.busy = true) → type = s.block.type) := by
  cases e with
  | reset => exact absurd trivial hc
  | regRead i => exact ⟨rfl, _, _, _, _, rfl, fun _ => rfl⟩
  | regWrite i v =>
    refine ⟨rfl, _, _, _, _, writeEffect_quiet hc hs, fun hty => if_neg ?_⟩
    rintro ⟨rfl, hb⟩
    simp [hty v rfl] at hb
  | offer =>
    have hw : eventEffect .offer s = s := State.takeOffer_of_waiting (ho rfl)
    rw [hw]
    exact ⟨rfl, _, _, _, _, rfl, fun _ => rfl⟩

theorem eventEffect_refused {e : Event} {s : State} (h : e.refusedBy s.block) :
    eventEffect e s = s.onBlock Block.refuse := by
  cases e with
  | regWrite i v =>
    show { s with block := writeEffect i v s.block } = { s with block := s.block.refuse }
    rw [writeEffect_refused h]
  | _ => exact h.elim

theorem eventEffect_cmderr {e : Event} {s : State} (hr : ¬e.refusedBy s.block) (hc : ¬e.clears) :
    (eventEffect e s).block.cmderr = s.block.cmderr := by
  cases e with
  | reset => exact absurd trivial hc
  | regRead i => rfl
  | regWrite i v => exact writeEffect_cmderr hr hc
  | offer => exact (State.takeOffer_frame s).2.1

theorem eventEffect_ctrl {e : Event} (s : State) (hreset : e ≠ .reset) (hctrl : ∀ v, e ≠ .regWrite 1 v) :
    (eventEffect e s).block.ieDone = s.block.ieDone ∧ (eventEffect e s).block.ieErr = s.block.ieErr := by
  cases e with
  | reset => exact absurd rfl hreset
  | regRead i => exact ⟨rfl, rfl⟩
  | regWrite i v =>
    have hi : i ≠ 1 := by
      rintro rfl
      exact hctrl v rfl
    exact writeEffect_ctrl_frame v s.block hi
  | offer =>
    obtain ⟨-, -, hdone, herr⟩ := State.takeOffer_frame s
    exact ⟨hdone, herr⟩

/-! ## The words read -/

theorem Block.read_unmapped (b : Block) {i : RegIndex} (h : 10 ≤ i.toNat) : b.read i = 0 := by
  have hne : i ≠ 0 ∧ i ≠ 1 ∧ i ≠ 2 ∧ i ≠ 3 ∧ i ≠ 4 ∧ i ≠ 5 ∧ i ≠ 6 ∧ i ≠ 7 ∧ i ≠ 8 ∧ i ≠ 9 := by
    revert i
    decide
  simp only [Block.read, Reg.cmd, Reg.ctrl, Reg.status, Reg.err, Reg.len, Reg.type, Reg.props, Reg.crcCalc, Reg.crcRx,
    Reg.cnt, hne, if_false]

theorem flagWord_getLsbD (f : Bool) (k : Nat) : (flagWord f).getLsbD k = (f && decide (k = 0)) := by
  cases f <;> cases k <;> simp [flagWord]

/-- `STATUS` bit by bit (10_state.md R23). -/
theorem Block.statusWord_getLsbD (b : Block) (k : Nat) :
    b.statusWord.getLsbD k =
      ((b.busy && decide (k = 0)) || (b.isDone && decide (k = 1)) || (b.isError && decide (k = 2)) ||
        (b.eob && decide (k = 3)) || (b.cmderr && decide (k = 4)) ||
        (decide (8 ≤ k) && b.state.code.getLsbD (k - 8)) || (decide (12 ≤ k) && b.op.getLsbD (k - 12))) := by
  simp only [Block.statusWord, BitVec.getLsbD_or, BitVec.getLsbD_shiftLeft, BitVec.getLsbD_setWidth,
    flagWord_getLsbD]
  grind

section
variable (b : Block)

theorem Block.statusWord_flags :
    b.statusWord.getLsbD 0 = b.busy ∧ b.statusWord.getLsbD 1 = b.isDone ∧ b.statusWord.getLsbD 2 = b.isError ∧
      b.statusWord.getLsbD 3 = b.eob ∧ b.statusWord.getLsbD 4 = b.cmderr := by
  simp [Block.statusWord_getLsbD, -BitVec.getLsbD_eq_getElem]

theorem Block.statusWord_state : b.statusWord.extractLsb' 8 4 = b.state.code := by
  ext i hi
  simp only [BitVec.getElem_extractLsb', Block.statusWord_getLsbD]
  grind

theorem Block.statusWord_op : b.statusWord.extractLsb' 12 4 = b.op := by
  ext i hi
  simp only [BitVec.getElem_extractLsb', Block.statusWord_getLsbD]
  grind

theorem Block.statusWord_reserved : b.statusWord.extractLsb' 5 3 = 0 ∧ b.statusWord.extractLsb' 16 16 = 0 := by
  constructor
  all_goals
    ext i hi
    simp only [BitVec.getElem_extractLsb', Block.statusWord_getLsbD]
    grind

end

theorem Seq.flags_exclusive (q : Seq) :
    ¬((q == .done) = true ∧ (q == .error) = true) ∧ ¬(q.busy = true ∧ (q == .done) = true) ∧
      ¬(q.busy = true ∧ (q == .error) = true) := by
  cases q <;> decide

theorem mayRaise_ne_zero {op err : Code} (h : mayRaise op err) : err ≠ 0 := by
  rintro rfl
  simp [mayRaise] at h

/-! ## The invariant, state by state -/

theorem Block.inv_iff (b : Block) : b.Inv ↔ b.OpFits ∧ b.ErrFits ∧ b.CntFits ∧ b.EobFits ∧ b.DataFits :=
  ⟨fun ⟨h1, h2, h3, h4, h5⟩ => ⟨h1, h2, h3, h4, h5⟩, fun ⟨h1, h2, h3, h4, h5⟩ => ⟨h1, h2, h3, h4, h5⟩⟩

section
variable {b : Block}

theorem Block.inv_lenf (h : b.state = .lenf) :
    b.Inv ↔ b.op = 1 ∧ b.err = 0 ∧ b.cnt.toNat < 4 ∧ b.eob = false ∧ b.type = 0 ∧ b.crc = crcInit ∧ b.crcRx = 0 := by
  simp only [Block.inv_iff, Block.OpFits, Block.ErrFits, Block.CntFits, Block.EobFits, Block.DataFits, h]

theorem Block.inv_typef (h : b.state = .typef) :
    b.Inv ↔ b.op = 1 ∧ b.err = 0 ∧ b.cnt.toNat < 4 ∧ b.eob = false ∧ b.crcRx = 0 := by
  simp only [Block.inv_iff, Block.OpFits, Block.ErrFits, Block.CntFits, Block.EobFits, Block.DataFits, h]

theorem Block.inv_payld (h : b.state = .payld) :
    b.Inv ↔ b.op = 1 ∧ b.err = 0 ∧ b.cnt.toNat < b.len.toNat ∧ b.eob = false ∧ b.crcRx = 0 := by
  simp only [Block.inv_iff, Block.OpFits, Block.ErrFits, Block.CntFits, Block.EobFits, Block.DataFits, h]

theorem Block.inv_crcf (h : b.state = .crcf) :
    b.Inv ↔ b.op = 1 ∧ b.err = 0 ∧ b.cnt.toNat < 4 ∧ b.eob = false := by
  simp only [Block.inv_iff, Block.OpFits, Block.ErrFits, Block.CntFits, Block.EobFits, Block.DataFits, h, and_true]

theorem Block.inv_slice (h : b.state = .slice) :
    b.Inv ↔ b.op = 2 ∧ b.err = 0 ∧ b.cnt.toNat ≤ 8 ∧ b.eob = false ∧
      (b.cnt.toNat < 8 → b.len = 0) ∧ (b.cnt.toNat ≤ 4 → b.type = 0 ∧ b.crc = crcInit) := by
  simp only [Block.inv_iff, Block.OpFits, Block.ErrFits, Block.CntFits, Block.EobFits, Block.DataFits, h]

theorem Block.inv_genr (h : b.state = .genr) :
    b.Inv ↔ b.op = 3 ∧ b.err = 0 ∧ b.cnt.toNat ≤ 4 ∧ b.eob = false ∧ b.crcRx = 0 ∧ (b.cnt.toNat < 4 → b.len = 0) := by
  simp only [Block.inv_iff, Block.OpFits, Block.ErrFits, Block.CntFits, Block.EobFits, Block.DataFits, h]

theorem Block.inv_labelr (h : b.state = .labelr) :
    b.Inv ↔ b.op = 4 ∧ b.err = 0 ∧ b.cnt.toNat ≤ 5 ∧ b.eob = false ∧ b.len = 0 ∧ b.crc = crcInit ∧ b.crcRx = 0 := by
  simp only [Block.inv_iff, Block.OpFits, Block.ErrFits, Block.CntFits, Block.EobFits, Block.DataFits, h]

theorem Block.inv_drainr (h : b.state = .drainr) :
    b.Inv ↔ b.op = 5 ∧ b.err = 0 ∧ b.cnt = 0 ∧ b.eob = false ∧ b.len = 0 ∧ b.type = 0 ∧ b.crc = crcInit ∧
      b.crcRx = 0 := by
  simp only [Block.inv_iff, Block.OpFits, Block.ErrFits, Block.CntFits, Block.EobFits, Block.DataFits, h]

end

theorem Block.inv_done {b : Block} (h : b.state = .done) :
    b.Inv ↔ (b.op = 1 ∨ b.op = 2 ∨ b.op = 3 ∨ b.op = 4 ∨ b.op = 5) ∧ b.err = 0 ∧ b.CntFits ∧
      (b.op = 1 ∨ b.eob = true) ∧ b.DataFits := by
  simp only [Block.inv_iff, Block.OpFits, Block.ErrFits, Block.EobFits, h]

/-- An error may be raised where the command has that error, and `EOB`, the checksums and `LEN` bear it out
(60_exceptions.md R173). -/
theorem Block.raise_inv {b : Block} (e : ErrName) (hop : mayRaise b.op e.code)
    (heob : e = .checksumMismatch ∨ e = .lenOverflow ∨ b.eob = true)
    (hsum : e = .checksumMismatch → b.crcRx ≠ ~~~ b.crc) (hlen : e = .lenOverflow → b.len = lenMax)
    (hrx : b.op = 3 ∨ b.op = 4 → b.crcRx = 0) : (b.raise e).Inv := by
  refine ⟨?_, hop, trivial, ?_, ?_⟩
  · show b.op = 1 ∨ b.op = 2 ∨ b.op = 3 ∨ b.op = 4
    rcases hop with ⟨h, -⟩ | ⟨h, -⟩ | ⟨h, -⟩ | ⟨h, -⟩ <;> simp [h]
  · show e.code = 3 ∨ e.code = 8 ∨ b.eob = true
    rcases heob with rfl | rfl | h
    · exact .inl rfl
    · exact .inr (.inl rfl)
    · exact .inr (.inr h)
  · refine ⟨fun h => hsum ?_, fun h => hlen ?_, hrx⟩ <;> cases e <;> simp_all [ErrName.code]

theorem Block.truncated_inv {b : Block} (hop : b.op = 1 ∨ b.op = 2 ∨ b.op = 3) (heob : b.eob = true)
    (hrx : b.op = 3 → b.crcRx = 0) : (b.raise .truncated).Inv := by
  refine Block.raise_inv .truncated ?_ (.inr (.inr heob)) nofun nofun fun h => ?_
  · rcases hop with h | h | h <;> simp [mayRaise, ErrName.code, h]
  · rcases h with h | h
    · exact hrx h
    · simp [h] at hop

theorem Block.lenOverflow_inv {b : Block} (hop : b.op = 2 ∨ b.op = 3) (hlen : b.len = lenMax)
    (hrx : b.op = 3 → b.crcRx = 0) : (b.raise .lenOverflow).Inv := by
  refine Block.raise_inv .lenOverflow ?_ (.inr (.inl rfl)) nofun (fun _ => hlen) fun h => ?_
  · rcases hop with h | h <;> simp [mayRaise, ErrName.code, h]
  · rcases h with h | h
    · exact hrx h
    · simp [h] at hop

theorem Block.labelError_inv {b : Block} {e : ErrName} (he : e = .invalidLength ∨ e = .invalidByte) (hop : b.op = 4)
    (heob : b.eob = true) (hrx : b.crcRx = 0) : (b.raise e).Inv := by
  rcases he with rfl | rfl
  · exact Block.raise_inv _ (by simp [mayRaise, ErrName.code, hop]) (.inr (.inr heob)) nofun nofun fun _ => hrx
  · exact Block.raise_inv _ (by simp [mayRaise, ErrName.code, hop]) (.inr (.inr heob)) nofun nofun fun _ => hrx

theorem Block.compareChecksum_inv {b : Block} (hop : b.op = 1 ∧ b.cnt = 4 ∨ b.op = 2 ∧ b.cnt = 8 ∧ b.eob = true)
    (herr : b.err = 0) : b.compareChecksum.Inv := by
  unfold Block.compareChecksum
  by_cases hsum : b.crcRx = ~~~b.crc
  · rw [if_pos hsum, Block.inv_done rfl]
    rcases hop with ⟨h, hcnt⟩ | ⟨h, hcnt, heob⟩ <;> simp [Block.CntFits, Block.DataFits, *]
  · rw [if_neg hsum]
    refine Block.raise_inv .checksumMismatch ?_ (.inl rfl) (fun _ => hsum) nofun ?_ <;>
      rcases hop with ⟨h, -⟩ | ⟨h, -⟩ <;> simp [mayRaise, ErrName.code, h]

/-! ## The invariant after a beat -/

theorem succ_lt_of_ne {c n : Word} (h : c.toNat < n.toNat) (hne : c + 1 ≠ n) : (c + 1).toNat < n.toNat := by
  bv_omega

theorem toNat_satInc (c : Word) {k : Nat} (h : k < 2 ^ 32) : (satInc c k).toNat = min (c.toNat + 1) k :=
  ofNat_min_toNat _ h

theorem Block.releaseOldest_frame (b : Block) :
    b.releaseOldest =
      { b with crc := b.releaseOldest.crc, type := b.releaseOldest.type, len := b.releaseOldest.len } := by
  unfold Block.releaseOldest
  split
  · dsimp only
    split <;> rfl
  · rfl

theorem Block.releaseOldest_eob (b : Block) (l : Bool) :
    { b with eob := l }.releaseOldest = { b.releaseOldest with eob := l } := by
  unfold Block.releaseOldest
  dsimp only
  repeat' split
  all_goals rfl

theorem Block.releaseOldest_len {b : Block} (h : b.cnt.toNat < 8) : b.releaseOldest.len = b.len := by
  unfold Block.releaseOldest
  simp only [h, if_true]
  split <;> rfl

theorem Block.releaseOldest_of_filling {b : Block} (h : b.cnt.toNat < 4) : b.releaseOldest = b :=
  if_neg (Nat.not_le.mpr h)

section
variable {b : Block}

theorem Block.genDone_inv (hs : b.state = .done) (hop : b.op = 3) (herr : b.err = 0) (hcnt : b.cnt = 4)
    (heob : b.eob = true) (hrx : b.crcRx = 0) : b.Inv := by
  rw [Block.inv_done hs]
  simp [Block.CntFits, Block.DataFits, *]

/-- LABEL's beat, its two updates of the block put together. -/
theorem Block.beatLabelr_eq (d : Byte) (l : Bool) (b : Block) :
    b.beatLabelr d l =
      let b := { b with
        eob := l, cnt := satInc b.cnt 5, type := if b.cnt.toNat < 4 then shiftIn b.type d else b.type }
      if l then
        if b.cnt ≠ 4 then b.raise .invalidLength
        else if !isAlpha b.type then b.raise .invalidByte
        else { b with state := .done }
      else b := by
  unfold Block.beatLabelr
  by_cases h : b.cnt.toNat < 4
  · simp only [h, if_true]
  · simp only [h, if_false]

theorem Block.beatLenf_inv (hs : b.state = .lenf) (h : b.Inv) (d : Byte) (l : Bool) : (b.beatLenf d l).Inv := by
  obtain ⟨hop, herr, hcnt, -, htype, hcrc, hrx⟩ := (Block.inv_lenf hs).mp h
  unfold Block.beatLenf
  cases l with
  | true => exact Block.truncated_inv (.inl hop) rfl fun _ => hrx
  | false =>
    by_cases h4 : b.cnt + 1 = 4
    · simp only [h4, Bool.false_eq_true, if_true, if_false]
      exact (Block.inv_typef rfl).mpr ⟨hop, herr, by simp, rfl, hrx⟩
    · simp only [h4, Bool.false_eq_true, if_false]
      exact (Block.inv_lenf (by exact hs)).mpr ⟨hop, herr, succ_lt_of_ne (n := 4) hcnt h4, rfl, htype, hcrc, hrx⟩

theorem Block.beatTypef_inv (hs : b.state = .typef) (h : b.Inv) (d : Byte) (l : Bool) : (b.beatTypef d l).Inv := by
  obtain ⟨hop, herr, hcnt, -, hrx⟩ := (Block.inv_typef hs).mp h
  unfold Block.beatTypef
  cases l with
  | true => exact Block.truncated_inv (.inl hop) rfl fun _ => hrx
  | false =>
    by_cases h4 : b.cnt + 1 = 4
    · by_cases hlen : b.len = 0
      · simp only [h4, hlen, Bool.false_eq_true, if_true, if_false]
        exact (Block.inv_crcf rfl).mpr ⟨hop, herr, by simp, rfl⟩
      · have hpos : 0 < b.len.toNat := by bv_omega
        simp only [h4, hlen, Bool.false_eq_true, if_true, if_false]
        exact (Block.inv_payld rfl).mpr ⟨hop, herr, hpos, rfl, hrx⟩
    · simp only [h4, Bool.false_eq_true, if_false]
      exact (Block.inv_typef (by exact hs)).mpr ⟨hop, herr, succ_lt_of_ne (n := 4) hcnt h4, rfl, hrx⟩

theorem Block.beatPayld_inv (hs : b.state = .payld) (h : b.Inv) (d : Byte) (l : Bool) : (b.beatPayld d l).Inv := by
  obtain ⟨hop, herr, hcnt, -, hrx⟩ := (Block.inv_payld hs).mp h
  unfold Block.beatPayld
  cases l with
  | true => exact Block.truncated_inv (.inl hop) rfl fun _ => hrx
  | false =>
    by_cases hend : b.cnt + 1 = b.len
    · simp only [hend, Bool.false_eq_true, if_true, if_false]
      exact (Block.inv_crcf rfl).mpr ⟨hop, herr, by simp, rfl⟩
    · simp only [hend, Bool.false_eq_true, if_false]
      exact (Block.inv_payld (by exact hs)).mpr ⟨hop, herr, succ_lt_of_ne hcnt hend, rfl, hrx⟩

theorem Block.beatCrcf_inv (hs : b.state = .crcf) (h : b.Inv) (d : Byte) (l : Bool) : (b.beatCrcf d l).Inv := by
  obtain ⟨hop, herr, hcnt, -⟩ := (Block.inv_crcf hs).mp h
  unfold Block.beatCrcf
  by_cases h4 : (b.cnt + 1).toNat < 4
  · simp only [h4, if_true]
    cases l with
    | true => exact Block.truncated_inv (.inl hop) rfl fun h3 => absurd (hop.symm.trans h3) (by decide)
    | false => exact (Block.inv_crcf (by exact hs)).mpr ⟨hop, herr, h4, rfl⟩
  · have hfull : b.cnt + 1 = 4 := by bv_omega
    simp only [h4, if_false]
    exact Block.compareChecksum_inv (.inl ⟨hop, hfull⟩) herr

/-- The block in the middle of a beat in SLICE, its oldest byte released and the new one not yet shifted in. -/
theorem Block.releaseOldest_slice (hs : b.state = .slice) (h : b.Inv) :
    b.releaseOldest.state = .slice ∧ b.releaseOldest.op = 2 ∧ b.releaseOldest.err = 0 ∧
      b.releaseOldest.cnt = b.cnt ∧ (b.cnt.toNat < 7 → b.releaseOldest.len = 0) ∧
      (b.cnt.toNat < 4 → b.releaseOldest.type = 0 ∧ b.releaseOldest.crc = crcInit) := by
  obtain ⟨hop, herr, -, -, hlen, hinit⟩ := (Block.inv_slice hs).mp h
  have hfr : b.releaseOldest = _ := b.releaseOldest_frame
  refine ⟨(congrArg Block.state hfr).trans hs, (congrArg Block.op hfr).trans hop,
    (congrArg Block.err hfr).trans herr, (congrArg Block.cnt hfr :), fun hc => ?_, fun hc => ?_⟩
  · rw [Block.releaseOldest_len (by omega)]
    exact hlen (by omega)
  · rw [Block.releaseOldest_of_filling hc]
    exact hinit (by omega)

theorem Block.beatSlice_inv (hs : b.state = .slice) (h : b.Inv) (d : Byte) (l : Bool) : (b.beatSlice d l).Inv := by
  have hop : b.op = 2 := ((Block.inv_slice hs).mp h).1
  dsimp only [Block.beatSlice]
  by_cases hov : 8 ≤ b.cnt.toNat ∧ b.len = lenMax
  · rw [if_pos hov]
    exact Block.lenOverflow_inv (.inl hop) hov.2 (by simp [hop])
  · rw [if_neg hov, Block.releaseOldest_eob]
    obtain ⟨hst, hop, herr, hcnt, hlen, hinit⟩ := Block.releaseOldest_slice hs h
    have hsat : (satInc b.releaseOldest.cnt 8).toNat = min (b.cnt.toNat + 1) 8 := by
      rw [hcnt, toNat_satInc _ (by decide)]
    have hle : (satInc b.releaseOldest.cnt 8).toNat ≤ 8 := by omega
    cases l with
    | true =>
      by_cases h8 : (satInc b.releaseOldest.cnt 8).toNat < 8
      · simp only [h8, if_true]
        exact Block.truncated_inv (.inr (.inl hop)) rfl (by simp [hop])
      · have hfull : satInc b.releaseOldest.cnt 8 = 8 := by bv_omega
        simp only [h8, if_true, if_false]
        exact Block.compareChecksum_inv (.inr ⟨hop, hfull, rfl⟩) herr
    | false =>
      have hlen' : (satInc b.releaseOldest.cnt 8).toNat < 8 → b.releaseOldest.len = 0 := fun hc => hlen (by omega)
      have hinit' : (satInc b.releaseOldest.cnt 8).toNat ≤ 4 →
          b.releaseOldest.type = 0 ∧ b.releaseOldest.crc = crcInit := fun hc => hinit (by omega)
      exact (Block.inv_slice (by exact hst)).mpr ⟨hop, herr, hle, rfl, hlen', hinit'⟩

theorem Block.beatGenr_inv (hs : b.state = .genr) (h : b.Inv) (d : Byte) (l : Bool) : (b.beatGenr d l).Inv := by
  obtain ⟨hop, herr, hcnt, -, hrx, hlen⟩ := (Block.inv_genr hs).mp h
  dsimp only [Block.beatGenr]
  by_cases hov : 4 ≤ b.cnt.toNat ∧ b.len = lenMax
  · rw [if_pos hov]
    exact Block.lenOverflow_inv (.inr hop) hov.2 fun _ => hrx
  rw [if_neg hov]
  by_cases h4 : b.cnt.toNat < 4
  · have hle : (b.cnt + 1).toNat ≤ 4 := by bv_omega
    rw [if_pos h4]
    cases l with
    | true =>
      by_cases h4' : (b.cnt + 1).toNat < 4
      · simp only [h4', if_true]
        exact Block.truncated_inv (.inr (.inr hop)) rfl fun _ => hrx
      · have hfull : b.cnt + 1 = 4 := by bv_omega
        simp only [h4', if_true, if_false]
        exact Block.genDone_inv rfl hop herr hfull rfl hrx
    | false => exact (Block.inv_genr (by exact hs)).mpr ⟨hop, herr, hle, rfl, hrx, fun _ => hlen h4⟩
  · have hfull : b.cnt = 4 := by bv_omega
    rw [if_neg h4]
    cases l with
    | true =>
      simp only [h4, if_true, if_false]
      exact Block.genDone_inv rfl hop herr hfull rfl hrx
    | false => exact (Block.inv_genr (by exact hs)).mpr ⟨hop, herr, hcnt, rfl, hrx, fun h => absurd h h4⟩

theorem Block.beatLabelr_inv (hs : b.state = .labelr) (h : b.Inv) (d : Byte) (l : Bool) : (b.beatLabelr d l).Inv := by
  obtain ⟨hop, herr, hcnt, -, hlen, hcrc, hrx⟩ := (Block.inv_labelr hs).mp h
  have hle : (satInc b.cnt 5).toNat ≤ 5 := by
    rw [toNat_satInc _ (by decide)]
    omega
  rw [Block.beatLabelr_eq]
  dsimp only
  generalize (if b.cnt.toNat < 4 then shiftIn b.type d else b.type) = type
  cases l with
  | true =>
    by_cases h4 : satInc b.cnt 5 = 4
    · cases hal : isAlpha type with
      | true =>
        simp only [h4, ne_eq, not_true_eq_false, Bool.not_true, Bool.false_eq_true, if_true, if_false]
        rw [Block.inv_done rfl]
        simp [Block.CntFits, Block.DataFits, *]
      | false =>
        simp only [h4, ne_eq, not_true_eq_false, Bool.not_false, if_true, if_false]
        exact Block.labelError_inv (.inr rfl) hop rfl hrx
    · simp only [h4, ne_eq, not_false_eq_true, if_true]
      exact Block.labelError_inv (.inl rfl) hop rfl hrx
  | false => exact (Block.inv_labelr (by exact hs)).mpr ⟨hop, herr, hle, rfl, hlen, hcrc, hrx⟩

theorem Block.beatDrainr_inv (hs : b.state = .drainr) (h : b.Inv) (d : Byte) (l : Bool) : (b.beatDrainr d l).Inv := by
  obtain ⟨hop, herr, hcnt, -, hlen, htype, hcrc, hrx⟩ := (Block.inv_drainr hs).mp h
  unfold Block.beatDrainr
  cases l with
  | true =>
    refine (Block.inv_done rfl).mpr ?_
    simp [*, Block.CntFits, Block.DataFits]
  | false => exact (Block.inv_drainr (by exact hs)).mpr ⟨hop, herr, hcnt, rfl, hlen, htype, hcrc, hrx⟩

end

theorem Block.beat_inv {b : Block} (h : b.Inv) (d : Byte) (l : Bool) : (b.beat d l).Inv := by
  unfold Block.beat
  cases hs : b.state with
  | idle => exact h
  | lenf => exact Block.beatLenf_inv hs h d l
  | typef => exact Block.beatTypef_inv hs h d l
  | payld => exact Block.beatPayld_inv hs h d l
  | crcf => exact Block.beatCrcf_inv hs h d l
  | slice => exact Block.beatSlice_inv hs h d l
  | genr => exact Block.beatGenr_inv hs h d l
  | labelr => exact Block.beatLabelr_inv hs h d l
  | drainr => exact Block.beatDrainr_inv hs h d l
  | done => exact h
  | error => exact h

/-! ## The invariant after the other events -/

theorem Block.afterReset_inv : Block.afterReset.Inv := ⟨rfl, rfl, rfl, rfl, rfl, rfl, rfl⟩

theorem Block.clear_inv (b : Block) : b.clear.Inv := ⟨rfl, rfl, rfl, rfl, rfl, rfl, rfl⟩

theorem Block.started_inv (b : Block) {op : Code} (h1 : 1 ≤ op.toNat) (h5 : op.toNat ≤ 5) :
    Block.Inv { b.forget with op := op, state := entryOf op } := by
  rcases streamOpcode_cases h1 h5 with rfl | rfl | rfl | rfl | rfl
  · exact (Block.inv_lenf rfl).mpr ⟨rfl, rfl, by simp, rfl, rfl, rfl, rfl⟩
  · exact (Block.inv_slice rfl).mpr ⟨rfl, rfl, by simp, rfl, fun _ => rfl, fun _ => ⟨rfl, rfl⟩⟩
  · exact (Block.inv_genr rfl).mpr ⟨rfl, rfl, by simp, rfl, rfl, fun _ => rfl⟩
  · exact (Block.inv_labelr rfl).mpr ⟨rfl, rfl, by simp, rfl, rfl, rfl, rfl⟩
  · exact (Block.inv_drainr rfl).mpr ⟨rfl, rfl, rfl, rfl, rfl, rfl, rfl, rfl⟩

/-- The invariant says nothing of `CMDERR` and `CTRL`, and nothing of `TYPE` in IDLE, DONE and ERROR. -/
theorem Block.inv_of_quiet {b : Block} (h : b.Inv) (type : Word) (hty : b.busy = true → type = b.type)
    (cmderr ieDone ieErr : Bool) :
    Block.Inv { b with type := type, cmderr := cmderr, ieDone := ieDone, ieErr := ieErr } := by
  obtain ⟨hop, herr, hcnt, heob, hdata⟩ := h
  refine ⟨hop, herr, hcnt, heob, ?_⟩
  cases hb : b.busy with
  | true =>
    rw [hty hb]
    exact hdata
  | false =>
    unfold Block.DataFits at hdata ⊢
    cases hs : b.state <;> simp_all [Block.busy, Seq.busy]

theorem writeEffect_inv (i : RegIndex) (v : Word) {b : Block} (h : b.Inv) : (writeEffect i v b).Inv := by
  by_cases hc : (Event.regWrite i v).clears
  · rw [writeEffect_clears b hc]
    exact b.clear_inv
  by_cases hs : (Event.regWrite i v).streamCommand ∧ b.busy = false
  · obtain ⟨⟨rfl, h1, h5⟩, hb⟩ := hs
    rw [writeEffect_cmd, commandEffect_start h1 h5 hb]
    exact b.started_inv h1 h5
  · rw [writeEffect_quiet hc fun hst => by simpa [hst] using hs]
    exact Block.inv_of_quiet h _ (fun hb => if_neg (by simp [hb])) _ _ _

theorem State.takeOffer_inv {s : State} (h : s.block.Inv) : s.takeOffer.block.Inv := by
  unfold State.takeOffer
  split
  · exact h
  · split
    · exact Block.beat_inv h _ _
    · exact h

theorem eventEffect_inv (e : Event) {s : State} (h : s.block.Inv) : (eventEffect e s).block.Inv := by
  cases e with
  | reset => exact Block.afterReset_inv
  | regRead i => exact h
  | regWrite i v => exact writeEffect_inv i v h
  | offer => exact State.takeOffer_inv h

end Sys2Proof.Machine
end

section
open Sys2Proof Sys2Proof.Machine

/-! ## The obligations -/

/-- Settles O38: each event keeps the invariant, a beat state by state. -/
theorem stepKeepsInvariant : Obligations.StepKeepsInvariant := by
  intro s t h hstep
  rcases step_cases hstep with ⟨-, rfl⟩ | ⟨e, more, -, rfl⟩
  · exact h
  · exact eventEffect_inv e h

/-- Settles O37. -/
theorem invariantAtReset : Obligations.InvariantAtReset := Block.afterReset_inv

/-- Settles O32, by the kinds of event: refused, clearing, neither. -/
theorem cmderrSetAndClearedOnlyBy : Obligations.CmderrSetAndClearedOnlyBy := by
  intro s t e more hi hstep
  obtain rfl := step_of_cons_eq hi hstep
  refine ⟨?_, fun hr => eventEffect_refused hr⟩
  by_cases hr : e.refusedBy s.block
  · rw [eventEffect_refused (s := { s with inputs := more }) hr]
    simp [hr]
  by_cases hc : e.clears
  · obtain ⟨_, _, h⟩ := eventEffect_clears { s with inputs := more } hc
    simp [h, Block.afterReset, hr, hc]
  · have h := eventEffect_cmderr (s := { s with inputs := more }) hr hc
    simp [h, hr, hc]

/-- Settles O33: a taken beat, a clearing event or accepted start, and a quiet event. -/
theorem eobWrittenOnlyBy : Obligations.EobWrittenOnlyBy := by
  intro s t e more hi hstep
  obtain rfl := step_of_cons_eq hi hstep
  refine ⟨?_, ?_, ?_⟩
  · rintro byte rest rfl hsrc hb
    simp only [eventEffect]
    rw [State.takeOffer_of_busy (s := { s with inputs := more }) hb hsrc, Block.beat_eob, if_pos hb]
  · rintro (hc | ⟨hs, hb⟩)
    · obtain ⟨_, _, h⟩ := eventEffect_clears { s with inputs := more } hc
      rw [h]
      rfl
    · obtain ⟨_, h⟩ := eventEffect_start (s := { s with inputs := more }) hs hb
      rw [h]
      rfl
  · intro hc hs ho
    obtain ⟨-, _, _, _, _, h, -⟩ := eventEffect_quiet (s := { s with inputs := more }) hc hs ho
    rw [h]

/-- Settles O34: `OP` is in no beat's reach, and a quiet event leaves it. -/
theorem opWrittenOnlyBy : Obligations.OpWrittenOnlyBy := by
  intro s t e more hi hstep
  obtain rfl := step_of_cons_eq hi hstep
  refine ⟨?_, ?_, ?_⟩
  · rintro v rfl h1 h5 hb
    exact congrArg Block.op (commandEffect_start h1 h5 hb)
  · intro hc
    obtain ⟨_, _, h⟩ := eventEffect_clears { s with inputs := more } hc
    rw [h]
    rfl
  · intro hc hs
    by_cases ho : e = .offer
    · subst ho
      exact (State.takeOffer_frame _).1
    · obtain ⟨-, _, _, _, _, h, -⟩ :=
        eventEffect_quiet (s := { s with inputs := more }) hc hs fun h => absurd h ho
      rw [h]

/-- Settles O35: the frame of a quiet event, and that of `CTRL`. -/
theorem dataRegistersWrittenOnlyBy : Obligations.DataRegistersWrittenOnlyBy := by
  intro s t e more hi hstep
  obtain rfl := step_of_cons_eq hi hstep
  refine ⟨fun hc hs ho => ?_, eventEffect_ctrl { s with inputs := more }⟩
  obtain ⟨hsrc, _, _, _, _, h, htype⟩ := eventEffect_quiet (s := { s with inputs := more }) hc hs ho
  rw [h]
  exact ⟨rfl, rfl, rfl, rfl, hsrc, htype⟩

/-- Settles O1. -/
theorem resetStateValues : Obligations.ResetStateValues := ⟨rfl, rfl, rfl⟩

/-- Settles O4, from `STATUS` read bit by bit. -/
theorem statusWordFields : Obligations.StatusWordFields := by
  intro b
  have hread : b.read 2 = b.statusWord := rfl
  obtain ⟨hbusy, hdone, herror, heob, hcmderr⟩ := b.statusWord_flags
  obtain ⟨hlow, hhigh⟩ := b.statusWord_reserved
  rw [hread]
  refine ⟨?_, hbusy, hdone, herror, heob, hcmderr, hlow, b.statusWord_op, hhigh⟩
  rw [b.statusWord_state, hbusy, hdone, herror]
  unfold Block.busy Block.isDone Block.isError
  cases b.state <;> decide

/-- Settles O5. -/
theorem registerMapReads : Obligations.RegisterMapReads := by
  intro b
  exact ⟨rfl, rfl, rfl, rfl, rfl, BitVec.xor_allOnes.symm, rfl, rfl, fun i h => b.read_unmapped h⟩

/-- Settles O7. -/
theorem unmappedAndReadOnlyWritesIgnored : Obligations.UnmappedAndReadOnlyWritesIgnored := by
  constructor
  · intro s i more hi h10
    refine ⟨s.block.read_unmapped h10, ?_⟩
    rw [step_of_cons hi]
    simp [eventEffect, State.readReg, s.block.read_unmapped h10]
  · intro s i v more hi hmem
    have hne : i ≠ 0 ∧ i ≠ 1 ∧ i ≠ 5 := by
      clear hi
      revert i
      decide
    obtain ⟨h0, h1, h5⟩ := hne
    rw [step_of_cons hi]
    simp [eventEffect, State.onBlock, writeEffect_other v s.block h0 h1 h5]

/-- Settles O29. -/
theorem statusFlagsExclusive : Obligations.StatusFlagsExclusive := by
  intro b
  have herr : b.Inv → b.isError = true → b.err ≠ 0 := by
    intro h he
    have hs : b.state = .error := by simpa [Block.isError] using he
    have hfit := h.errFits
    rw [Block.ErrFits, hs] at hfit
    exact mayRaise_ne_zero hfit
  obtain ⟨hde, hbd, hbe⟩ := b.state.flags_exclusive
  exact ⟨rfl, hde, hbd, hbe, herr⟩

end

section
/-! SUPPORT. Proofs of the statements about events, their order and the clock cycle (20_memory.md): a run of steps over
events is the run of the events, and a cycle is its register access followed by the offer. -/

namespace Sys2Proof.Machine

/-! ## The events still to come are not looked at -/

/-- An event does the same whatever events come after it (R49). -/
theorem eventEffect_withInputs (e : Event) (s : State) (more : List Event) :
    eventEffect e { s with inputs := more } = { eventEffect e s with inputs := more } := by
  cases e with
  | offer =>
    simp only [eventEffect, State.takeOffer]
    repeat' split
    all_goals rfl
  | _ => rfl

theorem State.feed_withInputs (n : Nat) (s : State) (more : List Event) :
    State.feed n { s with inputs := more } = { s.feed n with inputs := more } := by
  induction n generalizing s with
  | zero => rfl
  | succ n ih =>
    have hoffer : State.takeOffer { s with inputs := more } = { s.takeOffer with inputs := more } :=
      eventEffect_withInputs .offer s more
    rw [State.feed, hoffer, ih]
    rfl

/-! ## Runs of steps and runs of events -/

theorem step_eq_runEvent {s : State} {e : Event} {more : List Event} (h : s.inputs = e :: more) :
    step s = runEvent e { s with inputs := more } := by
  rw [step_of_cons h, runEvent_eq]

theorem runWrite_of_instr {i : RegIndex} {v : Word} {ins : Instr} (s : State) (h : decodeWrite i v = .instr ins) :
    runWrite i v s = exec ins s := by
  simp only [runWrite, h]

/-- Steps over the next events do what those events do, one after another (R46). -/
theorem runSteps_eq_runEvents (es : List Event) (s : State) (more : List Event) :
    runSteps es.length { s with inputs := es ++ more } = runEvents es { s with inputs := more } := by
  induction es generalizing s with
  | nil => rfl
  | cons e es ih =>
    have hstep : step { s with inputs := e :: es ++ more } =
        .next { eventEffect e s with inputs := es ++ more } := by
      rw [← eventEffect_withInputs e s (es ++ more)]
      exact step_of_cons rfl
    rw [List.length_cons, runSteps_succ _ hstep, ih, runEvents_cons, eventEffect_withInputs e s more]

theorem runEvents_append {es : List Event} {s a : State} (h : runEvents es s = .next a) (fs : List Event) :
    runEvents (es ++ fs) s = runEvents fs a := by
  rw [runEvents_eq] at h
  rw [runEvents_eq, runEvents_eq, List.foldl_append, Host.Outcome.next.inj h]

theorem runEvents_offers (n : Nat) (s : State) : runEvents (List.replicate n .offer) s = .next (s.feed n) := by
  induction n generalizing s with
  | zero => rfl
  | succ n ih => rw [List.replicate_succ, runEvents_cons, ih]; rfl

/-! ## The clock cycle -/

/-- What the register access of a cycle leaves: the read's value is the one before the write, and no byte is consumed
(R41, R48). -/
theorem runEvents_access (p : Pins) (s : State) :
    runEvents p.access s =
      .next { s with
        block := if p.regWe then writeEffect p.regAddr p.regWdata s.block else s.block
        returned := if p.regRe then s.block.read p.regAddr :: s.returned else s.returned } := by
  unfold Pins.access
  cases p.regRe <;> cases p.regWe <;> rw [runEvents_eq] <;> rfl

/-- A cycle without reset is its register access and then, if a byte is offered, the offer (R48). -/
theorem clockCycle_of_access {p : Pins} {s a : State} (hrst : p.rst = false) (h : runEvents p.access s = .next a) :
    clockCycle p s = .next (if p.inValid then a.takeOffer else a) := by
  have hevents : p.events = p.access ++ if p.inValid then [.offer] else [] := by simp [Pins.events, hrst]
  rw [clockCycle, hevents, runEvents_append h]
  cases p.inValid <;> rfl

theorem cycleInReady_of_access {p : Pins} {s a : State} (hrst : p.rst = false) (h : runEvents p.access s = .next a) :
    cycleInReady p s = a.block.inReady := by
  simp [cycleInReady, hrst, h]

theorem State.takeOffer_source_of_busy {s : State} (h : s.block.busy = true) : s.takeOffer.source = s.source.tail := by
  cases hs : s.source with
  | nil => rw [State.takeOffer_of_nil hs, hs]; rfl
  | cons x rest => rw [State.takeOffer_of_busy h hs]; rfl

/-- A cycle in which register 0 is written and a byte is offered: the offer meets the block the command leaves. -/
theorem clockCycle_command {p : Pins} (s : State) (hrst : p.rst = false) (hwe : p.regWe = true)
    (hvalid : p.inValid = true) (haddr : p.regAddr = 0) :
    ∃ a : State, clockCycle p s = .next a.takeOffer ∧ a.source = s.source ∧
      a.block = commandEffect (opcodeOf p.regWdata) s.block := by
  have hcycle := clockCycle_of_access hrst (runEvents_access p s)
  rw [if_pos hvalid, if_pos hwe, haddr, writeEffect_cmd] at hcycle
  exact ⟨_, hcycle, rfl, rfl⟩

theorem entryOf_busy (op : Code) : (entryOf op).busy = true := by
  revert op
  decide

end Sys2Proof.Machine

open Sys2Proof Sys2Proof.Machine

/-- Settles O45: the events of the run are offers, and `n` offers are `feed n`. -/
theorem feedIsARunOfSteps : Obligations.FeedIsARunOfSteps := by
  intro n s more
  have hrun := runSteps_eq_runEvents (List.replicate n .offer) s more
  rw [List.length_replicate] at hrun
  rw [hrun, runEvents_offers, State.feed_withInputs]

/-- Settles O55: the run by `runSteps_eq_runEvents`; the two consequences from what the command leaves, BUSY after a
start and IDLE after CLEAR. -/
theorem clockCycleIsItsEventsInOrder : Obligations.ClockCycleIsItsEventsInOrder := by
  refine ⟨fun p => rfl, fun p s => runSteps_eq_runEvents p.events s s.inputs, ?_⟩
  intro p s byte rest hrst hwe hvalid haddr hsource
  obtain ⟨a, hcycle, hsrc, hblock⟩ := clockCycle_command s hrst hwe hvalid haddr
  constructor
  · intro h1 h5 hidle
    rw [commandEffect_start h1 h5 hidle] at hblock
    have hbusy : a.block.busy = true := by
      rw [hblock]
      exact entryOf_busy _
    refine ⟨_, hcycle, ?_⟩
    rw [State.takeOffer_of_busy hbusy (hsrc.trans hsource)]
    refine ⟨rfl, ?_, ?_⟩
    · rw [Block.beat_op, hblock]
    · rw [Block.beat_eob, if_pos hbusy]
  · intro h6
    have hclear : opcodeOf p.regWdata = 6 := BitVec.eq_of_toNat_eq h6
    rw [hclear, commandEffect_clear] at hblock
    have hidle : a.block.busy = false := by
      rw [hblock]
      rfl
    refine ⟨_, hcycle, ?_⟩
    rw [State.takeOffer_of_not_busy hidle]
    exact ⟨hsrc, by rw [hblock, Block.clear_state]⟩

/-- Settles O6. -/
theorem readsHaveNoSideEffects : Obligations.ReadsHaveNoSideEffects := by
  intro s i more hi
  rw [step_of_cons hi]
  rfl

/-- Settles O24: the offer comes last in the cycle, and meets the block that the register access leaves. -/
theorem byteConsumedExactlyWhenBusy : Obligations.ByteConsumedExactlyWhenBusy := by
  refine ⟨fun b => rfl, fun p s a hrst ha => ⟨cycleInReady_of_access hrst ha, fun hvalid => ?_⟩⟩
  have hcycle : clockCycle p s = .next a.takeOffer := by rw [clockCycle_of_access hrst ha, if_pos hvalid]
  exact ⟨a.takeOffer, hcycle, a.takeOffer_inputs, a.takeOffer_returned, State.takeOffer_source_of_busy,
    State.takeOffer_of_not_busy⟩

/-- Settles O56: the register access records the value before the write, and the offer leaves `returned` alone. -/
theorem readBeforeWriteInOneCycle : Obligations.ReadBeforeWriteInOneCycle := by
  intro p s hrst hre
  refine ⟨by simp [cycleRdata, hrst, hre], _, clockCycle_of_access hrst (runEvents_access p s), ?_⟩
  cases p.inValid <;> simp [hre]

/-- Settles O60. -/
theorem stepRunsDecodedInstruction : Obligations.StepRunsDecodedInstruction := by
  intro s idx v i more hi hdecode
  rw [step_eq_runEvent hi]
  exact runWrite_of_instr _ hdecode

end

section
/-! SUPPORT. Proofs of the statements about encoding (30_encoding.md): the fields of an encoded word, and the decoder over
opcodes and indices. -/

namespace Sys2Proof

/-! ## The fields of an encoded word (R22, R45, R66) -/

@[simp] theorem opcodeOf_commandWord (ign : BitVec 28) (op : Code) : opcodeOf (commandWord ign op) = op :=
  (Laws.TableMatch.command ign op).1

@[simp] theorem ignoredOf_commandWord (ign : BitVec 28) (op : Code) : ignoredOf (commandWord ign op) = ign :=
  BitVec.extractLsb'_append_eq_left

/-- A command word is its ignored bits and its opcode, put together again. -/
theorem commandWord_fields (v : Word) : commandWord (ignoredOf v) (opcodeOf v) = v :=
  (BitVec.extractLsb'_append_extractLsb'_eq_extractLsb' rfl).trans BitVec.extractLsb'_eq_self

theorem ctrlWriteWord_ignored (ieDone ieErr : Bool) (ign : BitVec 30) :
    (ctrlWriteWord ieDone ieErr ign).extractLsb' 2 30 = ign :=
  BitVec.extractLsb'_append_eq_left

theorem ctrlWriteWord_enables (ieDone ieErr : Bool) (ign : BitVec 30) :
    (ctrlWriteWord ieDone ieErr ign).getLsbD 0 = ieDone ∧ (ctrlWriteWord ieDone ieErr ign).getLsbD 1 = ieErr := by
  simp only [ctrlWriteWord, BitVec.getLsbD_append, BitVec.getLsbD_ofBool]
  simp

/-- The two enables of a word are its bits 1:0. -/
theorem enables_eq_extract (v : Word) :
    BitVec.ofBool (v.getLsbD 1) ++ BitVec.ofBool (v.getLsbD 0) = v.extractLsb' 0 2 := by
  ext k hk
  rw [BitVec.getElem_append, BitVec.getElem_extractLsb']
  rcases (by omega : k = 0 ∨ k = 1) with rfl | rfl <;> simp

/-- A word written to `CTRL` is its two enables and its ignored bits, put together again. -/
theorem ctrlWriteWord_fields (v : Word) : ctrlWriteWord (v.getLsbD 0) (v.getLsbD 1) (v.extractLsb' 2 30) = v := by
  rw [ctrlWriteWord, enables_eq_extract]
  exact (BitVec.extractLsb'_append_extractLsb'_eq_extractLsb' rfl).trans BitVec.extractLsb'_eq_self

/-- Byte 1 of a big-endian word (R45); byte 0 is `byte0_be32`. -/
theorem byte1_be32 (a b c d : Byte) : byte1 (be32 a b c d) = b := by
  rw [byte1, be32, BitVec.extractLsb'_append_eq_of_le (by decide), BitVec.extractLsb'_append_eq_of_le (by decide)]
  exact BitVec.extractLsb'_append_eq_right

theorem byte2_be32 (a b c d : Byte) : byte2 (be32 a b c d) = c := by
  rw [byte2, be32, BitVec.extractLsb'_append_eq_of_le (by decide)]
  exact BitVec.extractLsb'_append_eq_right

theorem byte3_be32 (a b c d : Byte) : byte3 (be32 a b c d) = d :=
  BitVec.extractLsb'_append_eq_right

/-! ## The decoder (R67, R68, R36) -/

/-- The register write that a command word is, looked up by its opcode. -/
def decodeOpcode (op : Code) (ign : BitVec 28) : Decoded :=
  if op = Opcode.nop then .instr (.nop ign)
  else if op = Opcode.verify then .instr (.verify ign)
  else if op = Opcode.verifys then .instr (.verifys ign)
  else if op = Opcode.gen then .instr (.gen ign)
  else if op = Opcode.label then .instr (.label ign)
  else if op = Opcode.drain then .instr (.drain ign)
  else if op = Opcode.clear then .instr (.clear ign)
  else .reservedOpcode op

theorem decodeWrite_cmd (v : Word) : decodeWrite 0 v = decodeOpcode (opcodeOf v) (ignoredOf v) := rfl

theorem decodeWrite_ctrl (v : Word) :
    decodeWrite 1 v = .instr (.wrCtrl (v.getLsbD 0) (v.getLsbD 1) (v.extractLsb' 2 30)) := rfl

theorem decodeWrite_type (v : Word) :
    decodeWrite 5 v = .instr (.wrType (byte0 v) (byte1 v) (byte2 v) (byte3 v)) := rfl

theorem decodeWrite_other {i : RegIndex} (v : Word) (h0 : i ≠ 0) (h1 : i ≠ 1) (h5 : i ≠ 5) :
    decodeWrite i v = .ignoredRegister i := by
  simp only [decodeWrite, Reg.cmd, Reg.ctrl, Reg.type, h0, h1, h5, if_false]

theorem decodeWrite_commandWord (ign : BitVec 28) (op : Code) :
    decodeWrite 0 (commandWord ign op) = decodeOpcode op ign := by
  rw [decodeWrite_cmd, opcodeOf_commandWord, ignoredOf_commandWord]

/-- The writes that are no instruction: a reserved opcode, a read-only or unmapped index. -/
def rejectedWrite (i : RegIndex) (v : Word) : Prop :=
  (i = 0 ∧ 7 ≤ (opcodeOf v).toNat) ∨ (i ≠ 0 ∧ i ≠ 1 ∧ i ≠ 5)

theorem decodeOpcode_reserved {op : Code} (ign : BitVec 28) (h : 7 ≤ op.toNat) :
    decodeOpcode op ign = .reservedOpcode op := by
  obtain ⟨h0, h1, h2, h3, h4, h5, h6⟩ :
      op ≠ 0 ∧ op ≠ 1 ∧ op ≠ 2 ∧ op ≠ 3 ∧ op ≠ 4 ∧ op ≠ 5 ∧ op ≠ 6 := by
    revert op
    decide
  simp only [decodeOpcode, Opcode.nop, Opcode.verify, Opcode.verifys, Opcode.gen, Opcode.label, Opcode.drain,
    Opcode.clear, h0, h1, h2, h3, h4, h5, h6, if_false]

/-- Every other opcode is an instruction's, and that instruction is encoded with it. -/
theorem decodeOpcode_instr {op : Code} (ign : BitVec 28) (h : op.toNat < 7) :
    ∃ ins, decodeOpcode op ign = .instr ins ∧ encode ins = (0, commandWord ign op) := by
  rcases Machine.opcode_cases op with rfl | ⟨h1, h5⟩ | rfl | h7
  · exact ⟨.nop ign, rfl, rfl⟩
  · rcases Machine.streamOpcode_cases h1 h5 with rfl | rfl | rfl | rfl | rfl
    · exact ⟨.verify ign, rfl, rfl⟩
    · exact ⟨.verifys ign, rfl, rfl⟩
    · exact ⟨.gen ign, rfl, rfl⟩
    · exact ⟨.label ign, rfl, rfl⟩
    · exact ⟨.drain ign, rfl, rfl⟩
  · exact ⟨.clear ign, rfl, rfl⟩
  · omega

/-- A register write is rejected, or it decodes to an instruction that encodes back to it. -/
theorem decodeWrite_cases (i : RegIndex) (v : Word) :
    (∃ ins, decodeWrite i v = .instr ins ∧ encode ins = (i, v) ∧ ¬rejectedWrite i v) ∨
      ((∀ ins, decodeWrite i v ≠ .instr ins) ∧ rejectedWrite i v) := by
  by_cases h0 : i = 0
  · subst h0
    rw [decodeWrite_cmd]
    by_cases h7 : 7 ≤ (opcodeOf v).toNat
    · rw [decodeOpcode_reserved _ h7]
      exact .inr ⟨fun ins => Decoded.noConfusion, .inl ⟨rfl, h7⟩⟩
    · obtain ⟨ins, hd, he⟩ := decodeOpcode_instr (ignoredOf v) (Nat.not_le.mp h7)
      rw [commandWord_fields] at he
      exact .inl ⟨ins, hd, he, by simp [rejectedWrite, h7]⟩
  by_cases h1 : i = 1
  · subst h1
    exact .inl ⟨_, decodeWrite_ctrl v, congrArg (Prod.mk 1) (ctrlWriteWord_fields v), by simp [rejectedWrite]⟩
  by_cases h5 : i = 5
  · subst h5
    exact .inl ⟨_, decodeWrite_type v, congrArg (Prod.mk 5) (Machine.be32_bytes v), by simp [rejectedWrite]⟩
  · rw [decodeWrite_other v h0 h1 h5]
    exact .inr ⟨fun ins => Decoded.noConfusion, .inr ⟨h0, h1, h5⟩⟩

theorem decodeWrite_wrCtrl (ieDone ieErr : Bool) (ign : BitVec 30) :
    decodeWrite 1 (ctrlWriteWord ieDone ieErr ign) = .instr (.wrCtrl ieDone ieErr ign) := by
  obtain ⟨hdone, herr⟩ := ctrlWriteWord_enables ieDone ieErr ign
  rw [decodeWrite_ctrl, hdone, herr, ctrlWriteWord_ignored]

theorem decodeWrite_wrType (b0 b1 b2 b3 : Byte) : decodeWrite 5 (be32 b0 b1 b2 b3) = .instr (.wrType b0 b1 b2 b3) := by
  rw [decodeWrite_type, Machine.byte0_be32, byte1_be32, byte2_be32, byte3_be32]

end Sys2Proof
end

section
open Sys2Proof Sys2Proof.Machine

/-! ## The obligations -/

/-- Settles O57, by the constructors: a command word by its opcode, a `CTRL` and a `TYPE` write by their fields. -/
theorem decodeOfEncode : Obligations.DecodeOfEncode := by
  intro i
  cases i with
  | nop ign => exact decodeWrite_commandWord ign 0
  | verify ign => exact decodeWrite_commandWord ign 1
  | verifys ign => exact decodeWrite_commandWord ign 2
  | gen ign => exact decodeWrite_commandWord ign 3
  | label ign => exact decodeWrite_commandWord ign 4
  | drain ign => exact decodeWrite_commandWord ign 5
  | clear ign => exact decodeWrite_commandWord ign 6
  | wrCtrl ieDone ieErr ign => exact decodeWrite_wrCtrl ieDone ieErr ign
  | wrType b0 b1 b2 b3 => exact decodeWrite_wrType b0 b1 b2 b3

/-- Settles O58: every write is rejected or decodes to the instruction it encodes. -/
theorem encodeOfDecode : Obligations.EncodeOfDecode := by
  intro i v
  rcases decodeWrite_cases i v with ⟨ins, hd, he, hr⟩ | ⟨hd, hr⟩
  · refine ⟨fun ins' hd' => ?_, fun h => absurd hd (h ins), fun h => absurd h hr⟩
    obtain rfl : ins = ins' := Decoded.instr.inj (hd.symm.trans hd')
    exact he
  · exact ⟨fun ins h => absurd h (hd ins), fun _ => hr, fun _ => hd⟩

/-- Settles O14. -/
theorem reservedOpcodeRefusedInEveryState : Obligations.ReservedOpcodeRefusedInEveryState := by
  intro s v more hi h7
  have hrefused : (Event.regWrite 0 v).refusedBy s.block := .inr (.inl ⟨rfl, h7⟩)
  rw [step_of_cons hi, eventEffect_refused (s := { s with inputs := more }) hrefused]
  rfl

/-- Settles O15: what a command does depends on its opcode alone. -/
theorem commandWordUpperBitsIgnored : Obligations.CommandWordUpperBitsIgnored := by
  intro s v w h
  have hop : opcodeOf v = opcodeOf w := h
  calc runEvent (.regWrite 0 v) s
      _ = .next (s.onBlock (commandEffect (opcodeOf v))) := runWrite_cmd v s
      _ = .next (s.onBlock (commandEffect (opcodeOf w))) := by rw [hop]
      _ = runEvent (.regWrite 0 w) s := (runWrite_cmd w s).symm

/-- Settles O59. -/
theorem tableWordsDecode : Obligations.TableWordsDecode := by
  unfold Obligations.TableWordsDecode
  decide

end

section
/-! SUPPORT. Proofs of the statements about whole strings (30_encoding.md R62 to R64): what GEN and VERIFY leave of a
string whose last byte is marked. -/

namespace Sys2Proof.Machine

/-! ## A marked string fed whole -/

theorem markLast_dropLast (xs : List Byte) : (markLast xs).dropLast = unmarked xs.dropLast := by
  rcases List.eq_nil_or_concat xs with rfl | ⟨ys, d, rfl⟩
  · rfl
  · simp [markLast_snoc]

/-- A stream command that is still BUSY before the marked byte consumes the whole string. -/
theorem State.feed_markLast {s : State} (c : StreamCmd) {xs : List Byte} (hs : s.source = markLast xs)
    (hb : ((s.block.startStream c).beats (unmarked xs.dropLast)).busy = true) :
    (s.onBlock (Block.startStream c)).feed s.source.length =
      { s with block := (s.block.startStream c).beats (markLast xs), source := [] } := by
  rw [← markLast_dropLast] at hb
  rw [hs]
  exact State.feed_of_busy (s := s.onBlock (Block.startStream c)) (hs.trans (List.append_nil _).symm) (.inl hb)

/-- The last byte of a marked string, after the unmarked ones before it. -/
theorem Block.beats_markLast (b : Block) {xs : List Byte} (h : xs ≠ []) :
    b.beats (markLast xs) = (b.beats (unmarked xs.dropLast)).beat (xs.getLast h) true := by
  rw [markLast_ne_nil h, Block.beats_append]
  rfl

/-! ## GEN -/

/-- GEN on a marked string that is long enough and not too long: DONE (R115). -/
theorem gen_markLast {b : Block} (hb : b.busy = false) {xs : List Byte} (h4 : 4 ≤ xs.length)
    (hl : xs.length ≤ 2 ^ 32 + 3) :
    (b.startStream .gen).beats (markLast xs) = { genAfter b xs with eob := true, state := .done } := by
  have hne : xs ≠ [] := List.ne_nil_of_length_pos (by omega)
  have hd : xs.dropLast.length = xs.length - 1 := List.length_dropLast
  rw [Block.beats_markLast _ hne, gen_beats hb _ (by omega), genAfter_shift _ _ _ _ (by omega),
    List.dropLast_append_getLast hne, if_pos rfl, if_neg (by omega)]

/-- The registers after GEN on type and payload (R115). -/
def genResult (b : Block) (type : Word) (payload : List Byte) : Block :=
  { b.forget with
    state := .done, op := 3, len := BitVec.ofNat 32 payload.length, type := type
    crc := crcFeed crcInit (bytesOf type ++ payload), cnt := 4, eob := true }

theorem genInput_length (type : Word) (payload : List Byte) : (genInput type payload).length = 4 + payload.length :=
  List.length_append

theorem gen_input {b : Block} (hb : b.busy = false) (type : Word) {payload : List Byte}
    (hl : payload.length ≤ 0xFFFFFFFF) :
    (b.startStream .gen).beats (markLast (genInput type payload)) = genResult b type payload := by
  have hlen := genInput_length type payload
  have htype : (genInput type payload).take 4 = bytesOf type := List.take_left' (bytesOf_length type)
  have hcnt : min (4 + payload.length) 4 = 4 := by omega
  rw [gen_markLast hb (by omega) (by omega), genAfter, htype, packed_bytesOf, hlen, hcnt, Nat.add_sub_cancel_left]
  rfl

/-- GEN, executed and then fed type and payload. -/
theorem exec_gen_feed {s : State} (ign : BitVec 28) (hb : s.block.busy = false) (type : Word) {payload : List Byte}
    (hl : payload.length ≤ 0xFFFFFFFF) (hs : s.source = markLast (genInput type payload)) :
    ∃ g : State, exec (.gen ign) s = .next g ∧
      g.feed g.source.length = { s with block := genResult s.block type payload, source := [] } := by
  have hlen := genInput_length type payload
  have hbusy : ((s.block.startStream .gen).beats (unmarked (genInput type payload).dropLast)).busy = true := by
    rw [gen_beats hb _ (by rw [List.length_dropLast]; omega)]
    rfl
  refine ⟨_, exec_gen ign s, ?_⟩
  rw [State.onBlock_source, State.feed_markLast .gen hs hbusy, gen_input hb type hl]

/-! ## VERIFY -/

theorem verifyAfter_busy (b : Block) (xs : List Byte) : (verifyAfter b xs).busy = true := by
  unfold verifyAfter
  dsimp only
  repeat' split
  all_goals rfl

/-- The frame's last byte, marked or not, brings the comparison (R129, R130). -/
theorem verifyAfter_last (b : Block) {xs : List Byte} (d : Byte) (l : Bool)
    (h : xs.length = 11 + (packed (xs.take 4)).toNat) :
    (verifyAfter b xs).beat d l = { verifyAfter b (xs ++ [d]) with eob := l }.compareChecksum := by
  have ht : (xs ++ [d]).take 4 = xs.take 4 := List.take_append_of_le_length (by omega)
  have hd : (xs ++ [d]).drop 4 = xs.drop 4 ++ [d] := List.drop_append_of_le_length (by omega)
  have hdl : (xs.drop 4).length = xs.length - 4 := List.length_drop
  rw [verifyAfter_crcf b (by omega), verifyAfter_crcf b (by rw [ht]; simp; omega), ht, hd,
    List.take_append_of_le_length (by omega), List.take_append_of_le_length (by omega),
    List.drop_append_of_le_length (by omega), packed_snoc, List.length_append, List.length_singleton, h]
  have hthree : 11 + (packed (xs.take 4)).toNat - (8 + (packed (xs.take 4)).toNat) = 3 := by omega
  have hfour : 11 + (packed (xs.take 4)).toNat + 1 - (8 + (packed (xs.take 4)).toNat) = 4 := by omega
  rw [hthree, hfour]
  rfl

/-! ## The fields of a frame (R61) -/

theorem toNat_ofNat_of_le {n : Nat} (h : n ≤ 0xFFFFFFFF) : (BitVec.ofNat 32 n).toNat = n := by
  rw [BitVec.toNat_ofNat]
  exact Nat.mod_eq_of_lt (by omega)

section
variable (len type crc : Word) (payload : List Byte)

theorem frameOf_length : (frameOf len type payload crc).length = 12 + payload.length := by
  simp only [frameOf, sliceOf, List.length_append, bytesOf_length]
  omega

theorem frameOf_len : (frameOf len type payload crc).take 4 = bytesOf len := List.take_left' (bytesOf_length len)

theorem frameOf_slice : (frameOf len type payload crc).drop 4 = sliceOf type payload crc :=
  List.drop_left' (bytesOf_length len)

theorem sliceOf_type : (sliceOf type payload crc).take 4 = bytesOf type := by
  rw [sliceOf, List.append_assoc]
  exact List.take_left' (bytesOf_length type)

theorem sliceOf_body : (sliceOf type payload crc).take (4 + payload.length) = bytesOf type ++ payload :=
  List.take_left' (by rw [List.length_append, bytesOf_length])

theorem sliceOf_crc : (sliceOf type payload crc).drop (4 + payload.length) = bytesOf crc :=
  List.drop_left' (by rw [List.length_append, bytesOf_length])

end

/-- The registers that VERIFY compares at the end of a frame: each field of the frame in its register (R61). -/
def verifyCompared (b : Block) (type : Word) (payload : List Byte) (crc : Word) : Block :=
  { b.forget with
    state := .crcf, op := 1, len := BitVec.ofNat 32 payload.length, type := type
    crc := crcFeed crcInit (bytesOf type ++ payload), crcRx := crc, cnt := 4, eob := true }

theorem verifyCompared_good (b : Block) (type : Word) (payload : List Byte) :
    (verifyCompared b type payload (crc32 (bytesOf type ++ payload))).compareChecksum =
      { verifyCompared b type payload (crc32 (bytesOf type ++ payload)) with state := .done } :=
  if_pos (crc32_eq _)

theorem verifyAfter_frame (b : Block) (type crc : Word) {payload : List Byte} (hl : payload.length ≤ 0xFFFFFFFF) :
    verifyAfter b (frameOf (BitVec.ofNat 32 payload.length) type payload crc) =
      { verifyCompared b type payload crc with eob := false } := by
  have hlen := toNat_ofNat_of_le hl
  have hcnt : 12 + payload.length - (8 + payload.length) = 4 := by omega
  rw [verifyAfter_crcf b (by rw [frameOf_len, packed_bytesOf, frameOf_length]; omega)]
  simp only [frameOf_len, frameOf_slice, frameOf_length, packed_bytesOf, hlen, sliceOf_type, sliceOf_body, sliceOf_crc,
    hcnt]
  rfl

/-- All of a frame but its last byte is one byte short of the size its length field says. -/
theorem frameOf_dropLast_length (type crc : Word) {payload : List Byte} (hl : payload.length ≤ 0xFFFFFFFF)
    {ys : List Byte} (hys : ys = (frameOf (BitVec.ofNat 32 payload.length) type payload crc).dropLast) :
    ys.length = 11 + (packed (ys.take 4)).toNat := by
  have hsize := frameOf_length (BitVec.ofNat 32 payload.length) type crc payload
  have hfield : ys.take 4 = bytesOf (BitVec.ofNat 32 payload.length) := by
    rw [hys, List.dropLast_eq_take, List.take_take, min_eq_left (by omega), frameOf_len]
  rw [hfield, packed_bytesOf, toNat_ofNat_of_le hl, hys, List.length_dropLast, hsize]
  omega

/-- VERIFY on a whole frame: its checksum field is compared with the checksum of its type and payload. -/
theorem verify_frame {b : Block} (hb : b.busy = false) (type crc : Word) {payload : List Byte}
    (hl : payload.length ≤ 0xFFFFFFFF) :
    (b.startStream .verify).beats (markLast (frameOf (BitVec.ofNat 32 payload.length) type payload crc)) =
      (verifyCompared b type payload crc).compareChecksum := by
  have hdrop := frameOf_dropLast_length type crc hl rfl
  have hne : frameOf (BitVec.ofNat 32 payload.length) type payload crc ≠ [] :=
    List.ne_nil_of_length_pos (by rw [frameOf_length]; omega)
  rw [Block.beats_markLast _ hne, verify_beats hb _ (.inr (by omega)), verifyAfter_last b _ true hdrop,
    List.dropLast_append_getLast hne, verifyAfter_frame b type crc hl]
  rfl

/-- VERIFY, executed and then fed a whole frame. -/
theorem exec_verify_feed {s : State} (ign : BitVec 28) (hb : s.block.busy = false) (type crc : Word)
    {payload : List Byte} (hl : payload.length ≤ 0xFFFFFFFF)
    (hs : s.source = markLast (frameOf (BitVec.ofNat 32 payload.length) type payload crc)) :
    ∃ f : State, exec (.verify ign) s = .next f ∧
      f.feed f.source.length =
        { s with block := (verifyCompared s.block type payload crc).compareChecksum, source := [] } := by
  have hdrop := frameOf_dropLast_length type crc hl rfl
  have hbusy : ((s.block.startStream .verify).beats
      (unmarked (frameOf (BitVec.ofNat 32 payload.length) type payload crc).dropLast)).busy = true := by
    rw [verify_beats hb _ (.inr (by omega))]
    exact verifyAfter_busy _ _
  refine ⟨_, exec_verify ign s, ?_⟩
  rw [State.onBlock_source, State.feed_markLast .verify hs hbusy, verify_frame hb type crc hl]

/-- What a host copies out of the block (R75). -/
theorem Block.record_eq (b : Block) : b.record = ⟨b.len, b.type, ~~~ b.crc⟩ := rfl

/-- The frame a host builds after GEN carries the checksum of its type and payload (R62, R119). -/
theorem serialize_genResult (b : Block) (type : Word) (payload : List Byte) :
    serialize (genResult b type payload) payload =
      frameOf (BitVec.ofNat 32 payload.length) type payload (crc32 (bytesOf type ++ payload)) := by
  rw [crc32_eq]
  rfl

end Sys2Proof.Machine

open Sys2Proof Sys2Proof.Machine

/-- Settles O53: the registers after GEN, the frame they give, and the comparison that ends VERIFY on it. -/
theorem genSerializeVerifyRoundTrip : Obligations.GenSerializeVerifyRoundTrip := by
  intro s type payload hb hl
  obtain ⟨g, hexec, hgen⟩ :=
    exec_gen_feed (s := { s with source := markLast (genInput type payload) }) 0 hb type hl rfl
  obtain ⟨f, hexec', hverify⟩ :=
    exec_verify_feed
      (s := { s with
        block := genResult s.block type payload
        source := markLast (serialize (genResult s.block type payload) payload) })
      0 rfl type _ hl (congrArg markLast (serialize_genResult s.block type payload))
  rw [verifyCompared_good] at hverify
  refine ⟨g, _, f, hexec, hgen.symm, rfl, rfl, toNat_ofNat_of_le hl, hexec', ?_⟩
  rw [hverify]
  refine ⟨rfl, rfl, ?_⟩
  rw [Block.record_eq, Block.record_eq]
  rfl

end

section
/-! SUPPORT. The proof of the statement about LABEL (30_encoding.md R65): the letters of a type, and what LABEL leaves of
a string by where its first mark is. -/

namespace Sys2Proof.Machine

/-! ## Letters (R80, R85) -/

theorem alpha_iff (d : Byte) :
    alpha d = true ↔ (0x41 ≤ d.toNat ∧ d.toNat ≤ 0x5A) ∨ (0x61 ≤ d.toNat ∧ d.toNat ≤ 0x7A) := by
  simp [alpha]

theorem isAlpha_be32 (a b c d : Byte) : isAlpha (be32 a b c d) = (alpha a && alpha b && alpha c && alpha d) := by
  rw [isAlpha, byte0_be32, byte1_be32, byte2_be32, byte3_be32]

theorem isAlpha_be32Of {bytes : List Byte} (h : 4 ≤ bytes.length) :
    isAlpha (be32Of bytes) = true ↔
      ∀ d ∈ bytes.take 4, (0x41 ≤ d.toNat ∧ d.toNat ≤ 0x5A) ∨ (0x61 ≤ d.toNat ∧ d.toNat ≤ 0x7A) := by
  obtain ⟨a, b, c, d, ys, rfl⟩ := four_split h
  have hword : be32Of (a :: b :: c :: d :: ys) = be32 a b c d := rfl
  simp [hword, isAlpha_be32, alpha_iff, and_assoc]

/-! ## LABEL up to the first mark (R94, R95) -/

/-- Whatever its outcome, LABEL ends at a marked byte, with the registers it does not use at their start-up values. -/
theorem labelAfter_marked (b : Block) (xs : List Byte) (d : Byte) :
    ((labelAfter b xs).beat d true).busy = false ∧ ((labelAfter b xs).beat d true).eob = true ∧
      ((labelAfter b xs).beat d true).crc = crcInit ∧ ((labelAfter b xs).beat d true).crcRx = 0 ∧
      ((labelAfter b xs).beat d true).len = 0 := by
  rw [labelAfter_shift, if_pos rfl]
  repeat' split
  all_goals exact ⟨rfl, rfl, rfl, rfl, rfl⟩

theorem labelAfter_wrongLength (b : Block) {xs : List Byte} (d : Byte) (h : xs.length + 1 ≠ 4) :
    ((labelAfter b xs).beat d true).state = .error ∧ ((labelAfter b xs).beat d true).err = 4 := by
  rw [labelAfter_shift, if_pos rfl, if_pos (by simpa using h)]
  exact ⟨rfl, rfl⟩

/-- Four bytes are `TYPE`, and letters or not decides between DONE and `InvalidByte`. -/
theorem labelAfter_four (b : Block) {xs : List Byte} (d : Byte) (h : xs.length + 1 = 4) :
    ((labelAfter b xs).beat d true).type = packed (xs ++ [d]) ∧ ((labelAfter b xs).beat d true).cnt = 4 ∧
      (isAlpha (packed (xs ++ [d])) = true →
        ((labelAfter b xs).beat d true).state = .done ∧ ((labelAfter b xs).beat d true).err = 0) ∧
      (isAlpha (packed (xs ++ [d])) = false →
        ((labelAfter b xs).beat d true).state = .error ∧ ((labelAfter b xs).beat d true).err = 5) := by
  have hl : (xs ++ [d]).length = 4 := by simpa using h
  have ht : (xs ++ [d]).take 4 = xs ++ [d] := List.take_of_length_le hl.le
  rw [labelAfter_shift, if_pos rfl, if_neg (not_not.mpr hl), labelAfter, ht, hl]
  cases isAlpha (packed (xs ++ [d]))
  · exact ⟨rfl, rfl, Bool.noConfusion, fun _ => ⟨rfl, rfl⟩⟩
  · exact ⟨rfl, rfl, fun _ => ⟨rfl, rfl⟩, Bool.noConfusion⟩

end Sys2Proof.Machine

open Sys2Proof Sys2Proof.Machine

/-- Settles O50: the source is cut at its first mark; the length is checked there before the letters. -/
theorem labelWholeInput : Obligations.LabelWholeInput := by
  rintro s t ign hb hexec bytes r rfl rfl
  have ht : t = s.onBlock (Block.startStream .label) := (Host.Outcome.next.inj hexec).symm
  constructor
  · intro e he
    obtain ⟨ys, d, hys, hsrc⟩ := firstLast_some he
    have hbeats := label_beats hb ys
    obtain ⟨hidle, heob, hcrc, hrx, hlen⟩ := labelAfter_marked s.block ys d
    have hfeed := State.feed_started ht hsrc (by rw [hbeats]; rfl) (by rw [hbeats]; exact hidle)
    rw [hbeats] at hfeed
    rw [hfeed]
    refine ⟨rfl, heob, hcrc, hrx, hlen, fun hne => labelAfter_wrongLength s.block d (by omega), fun h4 => ?_⟩
    have htake : (s.source.map Beat.data).take 4 = ys ++ [d] := h4 ▸ take_to_mark hys hsrc
    have hlong : 4 ≤ (s.source.map Beat.data).length := by
      have hlen := congrArg List.length htake
      rw [List.length_take, List.length_append, List.length_singleton] at hlen
      omega
    have hword := be32Of_eq_packed hlong
    rw [htake] at hword
    obtain ⟨htype, hcnt, hdone, herror⟩ := labelAfter_four s.block d (by omega : ys.length + 1 = 4)
    rw [← hword] at htype hdone herror
    refine ⟨htype, hcnt, fun hall => hdone ((isAlpha_be32Of hlong).mpr hall), fun ⟨x, hx, hbad⟩ => ?_⟩
    exact herror (Bool.eq_false_iff.mpr fun halpha => hbad ((isAlpha_be32Of hlong).mp halpha x hx))
  · intro hnone
    have hbeats := label_beats hb (s.source.map Beat.data)
    rw [← firstLast_none hnone] at hbeats
    rw [State.feed_started_all ht (by rw [hbeats]; rfl), hbeats]
    exact ⟨rfl, rfl⟩

end

section
/-! SUPPORT. Proofs of the statements about the type-code decoder, `WR_TYPE` and LABEL's beat (40_typecode.md): the bits
of `PROPS`, a word from its four bytes, and the step that takes an offered byte. -/

namespace Sys2Proof.Machine

/-! ## The property decode (R81 to R87) -/

/-- The property bit of a byte, the one with value 0x20, is its bit 5 (R81). -/
theorem propertyBit_clear (d : Byte) : (d &&& 0x20 == 0) = !d.getLsbD 5 := by
  have hand : d &&& 0x20 = if d.getLsbD 5 then 0x20 else 0 := BitVec.and_twoPow d 5
  rw [hand]
  cases d.getLsbD 5 <;> rfl

theorem isCritical_eq (t : Word) : isCritical t = !t.getLsbD 29 := by
  rw [isCritical, propertyBit_clear, byte0, BitVec.getLsbD_extractLsb']
  rfl

theorem isPublic_eq (t : Word) : isPublic t = !t.getLsbD 21 := by
  rw [isPublic, propertyBit_clear, byte1, BitVec.getLsbD_extractLsb']
  rfl

theorem isReservedBitValid_eq (t : Word) : isReservedBitValid t = !t.getLsbD 13 := by
  rw [isReservedBitValid, propertyBit_clear, byte2, BitVec.getLsbD_extractLsb']
  rfl

theorem isSafeToCopy_eq (t : Word) : isSafeToCopy t = t.getLsbD 5 := by
  rw [isSafeToCopy, bne, propertyBit_clear, Bool.not_not, byte3, BitVec.getLsbD_extractLsb']
  rfl

/-- ALPHA with the letters' ranges written out (R80, R85). -/
theorem isAlpha_iff (t : Word) :
    isAlpha t = true ↔ ∀ d ∈ [byte0 t, byte1 t, byte2 t, byte3 t],
      (0x41 ≤ d.toNat ∧ d.toNat ≤ 0x5A) ∨ (0x61 ≤ d.toNat ∧ d.toNat ≤ 0x7A) := by
  simp [isAlpha, alpha_iff, and_assoc]

theorem props_getLsbD (t : Word) :
    (props t).getLsbD 0 = isCritical t ∧ (props t).getLsbD 1 = isPublic t ∧
      (props t).getLsbD 2 = isReservedBitValid t ∧ (props t).getLsbD 3 = isSafeToCopy t ∧
      (props t).getLsbD 4 = isValid t ∧ (props t).getLsbD 5 = isAlpha t := by
  simp only [props, BitVec.getLsbD_append, BitVec.getLsbD_ofBool]
  simp

theorem Block.read_props (b : Block) : b.read 6 = (props b.type).setWidth 32 := rfl

/-- Above its six bits `PROPS` reads 0 (R87). -/
theorem Block.read_props_upper (b : Block) : (b.read 6).extractLsb' 6 26 = 0 := by
  rw [Block.read_props]
  ext i hi
  simp

theorem Block.read_props_getLsbD (b : Block) {k : Nat} (h : k < 6) :
    (b.read 6).getLsbD k = (props b.type).getLsbD k := by
  rw [Block.read_props, BitVec.getLsbD_setWidth, decide_eq_true (by omega), Bool.true_and]

/-- `PROPS` bit by bit: each predicate is one bit of `TYPE`, the letter test, or both. -/
theorem Block.read_props_bits (b : Block) :
    (b.read 6).getLsbD 0 = !b.type.getLsbD 29 ∧ (b.read 6).getLsbD 1 = !b.type.getLsbD 21 ∧
      (b.read 6).getLsbD 2 = !b.type.getLsbD 13 ∧ (b.read 6).getLsbD 3 = b.type.getLsbD 5 ∧
      (b.read 6).getLsbD 4 = (isAlpha b.type && !b.type.getLsbD 13) ∧ (b.read 6).getLsbD 5 = isAlpha b.type := by
  obtain ⟨hcritical, hpublic, hreserved, hsafe, hvalid, halpha⟩ := props_getLsbD b.type
  simp only [Block.read_props_getLsbD, Nat.reduceLT, hcritical, hpublic, hreserved, hsafe, hvalid, halpha, isValid,
    isCritical_eq, isPublic_eq, isReservedBitValid_eq, isSafeToCopy_eq, and_self]

/-! ## A word from its four bytes (R90) -/

theorem be32_toNat (b0 b1 b2 b3 : Byte) :
    (be32 b0 b1 b2 b3).toNat = b0.toNat * 2 ^ 24 + b1.toNat * 2 ^ 16 + b2.toNat * 2 ^ 8 + b3.toNat := by
  simp only [be32, BitVec.toNat_append]
  rw [← Nat.shiftLeft_add_eq_or_of_lt b1.isLt, ← Nat.shiftLeft_add_eq_or_of_lt b2.isLt,
    ← Nat.shiftLeft_add_eq_or_of_lt b3.isLt]
  simp only [Nat.shiftLeft_eq]
  omega

/-! ## Beats (R42, R43, R94) -/

/-- A byte offered while BUSY is taken by the beat of its state. -/
theorem step_offer_of_busy {s : State} {x : Beat} {rest : List Beat} {more : List Event} (hb : s.block.busy = true)
    (hs : s.source = x :: rest) (hi : s.inputs = .offer :: more) :
    step s = .next { s with inputs := more, source := rest, block := s.block.beat x.data x.last } := by
  rw [step_of_cons hi]
  exact congrArg _ (State.takeOffer_of_busy (s := { s with inputs := more }) hb hs)

/-- LABEL's counter stops at 5, from any value. -/
theorem satInc_five (c : Word) : satInc c 5 = if 4 ≤ c.toNat then 5 else c + 1 := by
  apply BitVec.eq_of_toNat_eq
  rw [toNat_satInc c (by decide)]
  split <;> bv_omega

/-- LABEL's three outcomes at `in_last`: the length is checked before the letters. -/
theorem labelEnd_eq (b : Block) :
    (if b.cnt ≠ 4 then b.raise .invalidLength
     else if !isAlpha b.type then b.raise .invalidByte else { b with state := .done }) =
    (if b.cnt ≠ 4 then { b with err := 4, state := .error }
     else if isAlpha b.type then { b with state := .done } else { b with err := 5, state := .error }) := by
  split
  · rfl
  · cases isAlpha b.type <;> rfl

end Sys2Proof.Machine

open Sys2Proof Sys2Proof.Machine

/-! ## The obligations -/

/-- Settles O40: the register's bits, where the letter test and the given flag are the same. -/
theorem propsBitsDecodeType : Obligations.PropsBitsDecodeType := by
  refine ⟨?_, alpha_iff, by decide⟩
  rintro b t rfl allLetters hletters
  obtain rfl : isAlpha b.type = allLetters := Bool.eq_iff_iff.mpr ((isAlpha_iff b.type).trans hletters.symm)
  obtain ⟨hcritical, hpublic, hreserved, hsafe, hvalid, halpha⟩ := b.read_props_bits
  exact ⟨hcritical, hpublic, hreserved, hsafe, hvalid, halpha, b.read_props_upper, rfl⟩

/-- Settles O13: the write as an event, and the instruction when not BUSY and while BUSY. -/
theorem typeWriteStoredOrRefused : Obligations.TypeWriteStoredOrRefused := by
  refine ⟨fun s v more hi => ?_, fun s b0 b1 b2 b3 hb => ?_, fun s b0 b1 b2 b3 hb => ?_⟩
  · rw [step_of_cons hi, eventEffect, State.onBlock, writeEffect_type, Block.writeType]
    rfl
  · refine ⟨{ s with block := { s.block with type := be32 b0 b1 b2 b3 } }, ?_, rfl, be32_toNat b0 b1 b2 b3⟩
    rw [exec_wrType, State.onBlock, Block.writeType_of_not_busy _ hb]
  · rw [exec_wrType, State.onBlock, Block.writeType_of_busy _ hb]
    rfl

/-- Settles O22: the beat's updates put together, then its three outcomes at `in_last`. -/
theorem beatInLabel : Obligations.BeatInLabel := by
  intro s d l rest more hstate hsrc hi
  refine ⟨_, rfl, ?_⟩
  have hbusy : s.block.busy = true := by rw [Block.busy, hstate]; rfl
  have hbeat : s.block.beat d l = s.block.beatLabelr d l := by rw [Block.beat, hstate]
  rw [step_offer_of_busy hbusy hsrc hi, hbeat, Block.beatLabelr_eq, satInc_five]
  cases l with
  | false => rfl
  | true =>
    exact congrArg (fun b => Host.Outcome.next { s with inputs := more, source := rest, block := b }) (labelEnd_eq _)

end

section
/-! SUPPORT. Proofs of the statements about the CRC engine (41_crc32.md): one shift-and-XOR step is linear over XOR and
loses nothing, which gives the table form and the detection of a changed byte; and the accumulator follows the bytes
that the events feed. -/

namespace Sys2Proof.Machine

/-! ## The shift-and-XOR step is linear and injective (R101) -/

theorem crcBit_xor (a b : Word) : crcBit (a ^^^ b) = crcBit a ^^^ crcBit b := by
  simp only [crcBit, BitVec.getLsbD_xor, BitVec.ushiftRight_xor_distrib]
  cases a.getLsbD 0 <;> cases b.getLsbD 0 <;> simp [BitVec.xor_assoc, BitVec.xor_comm crcPoly]

theorem crcBit_of_even {c : Word} (h : c.getLsbD 0 = false) : crcBit c = c >>> 1 := by
  simp [crcBit, h, -BitVec.getLsbD_eq_getElem]

/-- The polynomial's top bit is set and the shift clears it, so a step on an odd accumulator never gives 0. -/
theorem crcBit_eq_zero {c : Word} (h : crcBit c = 0) : c = 0 := by
  have hodd : c.getLsbD 0 = false := by
    by_contra hodd
    have htop : (crcBit c).getLsbD 31 = true := by
      rw [crcBit, if_pos (by simpa using hodd)]
      simp [crcPoly, -BitVec.getLsbD_eq_getElem]
    simp [h] at htop
  rw [crcBit_of_even hodd] at h
  ext i hi
  cases i with
  | zero => simpa using hodd
  | succ i => simpa [hi, Nat.add_comm] using congrArg (·.getLsbD i) h

theorem crcBits_xor (n : Nat) (a b : Word) : crcBits n (a ^^^ b) = crcBits n a ^^^ crcBits n b := by
  induction n generalizing a b with
  | zero => rfl
  | succ n ih => simp only [crcBits, crcBit_xor, ih]

theorem crcBits_eq_zero {n : Nat} {c : Word} (h : crcBits n c = 0) : c = 0 := by
  induction n generalizing c with
  | zero => exact h
  | succ n ih => exact crcBit_eq_zero (ih h)

theorem crcBits_injective (n : Nat) : Function.Injective (crcBits n) := by
  intro a b h
  have hzero : crcBits n (a ^^^ b) = 0 := by rw [crcBits_xor, h, BitVec.xor_self]; rfl
  exact BitVec.xor_eq_zero_iff.mp (crcBits_eq_zero hzero)

/-- While the bits shifted out are 0, the polynomial never enters. -/
theorem crcBits_of_low_zero {n : Nat} {c : Word} (h : ∀ i < n, c.getLsbD i = false) : crcBits n c = c >>> n := by
  induction n generalizing c with
  | zero => rfl
  | succ n ih =>
    have hshift : ∀ i < n, (c >>> 1).getLsbD i = false := fun i hi => by
      rw [BitVec.getLsbD_ushiftRight]
      exact h (1 + i) (by omega)
    rw [crcBits, crcBit_of_even (h 0 (by omega)), ih hshift, ← BitVec.shiftRight_add, Nat.add_comm]

/-! ## One byte (R101, R102) -/

theorem low_xor_high (w : Word) : w = (w.extractLsb' 0 8).setWidth 32 ^^^ (w >>> 8) <<< 8 := by
  ext i hi
  simp only [BitVec.getElem_xor, BitVec.getElem_setWidth, BitVec.getLsbD_extractLsb', BitVec.getElem_shiftLeft]
  by_cases h : i < 8
  · simp [h, BitVec.getLsbD_eq_getElem hi]
  · simp [h, Nat.add_sub_cancel' (Nat.not_lt.mp h), BitVec.getLsbD_eq_getElem hi]

theorem crcTable_eq (i : Byte) : crcTable i = crcBits 8 (i.setWidth 32) := congrArg (crcBits 8) BitVec.zero_xor

theorem crcUpdate_eq_table (c : Word) (d : Byte) :
    crcUpdate c d = crcTable ((c ^^^ d.setWidth 32).extractLsb' 0 8) ^^^ (c >>> 8) := by
  have hbyte : (c ^^^ d.setWidth 32) >>> 8 = c >>> 8 := by
    ext i hi
    simp
  have hhigh : crcBits 8 ((c >>> 8) <<< 8) = c >>> 8 := by
    rw [crcBits_of_low_zero fun i hi => by simp [hi, -BitVec.getLsbD_eq_getElem]]
    bv_omega
  calc crcUpdate c d
      = crcBits 8 (((c ^^^ d.setWidth 32).extractLsb' 0 8).setWidth 32 ^^^ (c >>> 8) <<< 8) := by
        rw [← hbyte, ← low_xor_high]
        rfl
    _ = crcTable ((c ^^^ d.setWidth 32).extractLsb' 0 8) ^^^ (c >>> 8) := by
        rw [crcBits_xor, hhigh, crcTable_eq]

theorem crcUpdate_injective_acc (d : Byte) : Function.Injective (crcUpdate · d) :=
  fun _ _ h => (BitVec.xor_left_inj _).mp (crcBits_injective 8 h)

theorem crcUpdate_injective_byte (c : Word) : Function.Injective (crcUpdate c) := by
  intro d e h
  have hwide : d.setWidth 32 = e.setWidth 32 := (BitVec.xor_right_inj c).mp (crcBits_injective 8 h)
  bv_omega

/-! ## Strings (R103, R109) -/

theorem crcFeed_injective_acc (bytes : List Byte) : Function.Injective (crcFeed · bytes) := by
  induction bytes with
  | nil => exact fun _ _ h => h
  | cons d rest ih => exact fun _ _ h => crcUpdate_injective_acc d (ih h)

theorem crcFeed_change_byte (c : Word) (before after : List Byte) {d e : Byte} (hne : d ≠ e) :
    crcFeed c (before ++ d :: after) ≠ crcFeed c (before ++ e :: after) := by
  rw [crcFeed_append, crcFeed_append]
  intro h
  exact hne (crcUpdate_injective_byte _ (crcFeed_injective_acc after h))

/-! ## The bytes a beat feeds (R105) -/

@[simp] theorem Block.compareChecksum_crc (b : Block) : b.compareChecksum.crc = b.crc := by
  unfold Block.compareChecksum
  split <;> rfl

theorem Block.releaseOldest_crc (b : Block) :
    b.releaseOldest.crc = if 4 ≤ b.cnt.toNat then crcUpdate b.crc (byte0 b.crcRx) else b.crc := by
  unfold Block.releaseOldest
  split
  · dsimp only
    split <;> rfl
  · rfl

section
variable (d : Byte) (l : Bool) (b : Block)

theorem Block.beatLenf_crc : (b.beatLenf d l).crc = b.crc := by
  simp [Block.beatLenf, apply_ite Block.crc]

theorem Block.beatTypef_crc : (b.beatTypef d l).crc = crcUpdate b.crc d := by
  simp [Block.beatTypef, apply_ite Block.crc]

theorem Block.beatPayld_crc : (b.beatPayld d l).crc = crcUpdate b.crc d := by
  simp [Block.beatPayld, apply_ite Block.crc]

theorem Block.beatCrcf_crc : (b.beatCrcf d l).crc = b.crc := by
  simp [Block.beatCrcf, apply_ite Block.crc]

/-- The byte that overflows `LEN` releases nothing (R136). -/
theorem Block.beatSlice_crc :
    (b.beatSlice d l).crc = if 8 ≤ b.cnt.toNat ∧ b.len = lenMax then b.crc else b.releaseOldest.crc := by
  unfold Block.beatSlice
  dsimp only
  rw [Block.releaseOldest_eob]
  repeat' split
  all_goals simp

/-- The byte that overflows `LEN` is not fed (R116). -/
theorem Block.beatGenr_crc :
    (b.beatGenr d l).crc = if 4 ≤ b.cnt.toNat ∧ b.len = lenMax then b.crc else crcUpdate b.crc d := by
  simp [Block.beatGenr, apply_ite Block.crc]

theorem Block.beatLabelr_crc : (b.beatLabelr d l).crc = b.crc := by
  simp [Block.beatLabelr, apply_ite Block.crc]

theorem Block.beatDrainr_crc : (b.beatDrainr d l).crc = b.crc := by
  simp [Block.beatDrainr, apply_ite Block.crc]

theorem Block.beat_crc : (b.beat d l).crc = crcFeed b.crc (fedBytes d b) := by
  unfold Block.beat fedBytes
  cases b.state with
  | idle => rfl
  | lenf => exact b.beatLenf_crc d l
  | typef => exact b.beatTypef_crc d l
  | payld => exact b.beatPayld_crc d l
  | crcf => exact b.beatCrcf_crc d l
  | slice =>
    dsimp only
    rw [Block.beatSlice_crc, Block.releaseOldest_crc, lenMax]
    by_cases hover : 8 ≤ b.cnt.toNat ∧ b.len = 0xFFFFFFFF
    · rw [if_pos hover, if_neg fun h => h.2 hover]
      rfl
    · by_cases hfull : 4 ≤ b.cnt.toNat
      · rw [if_neg hover, if_pos hfull, if_pos ⟨hfull, hover⟩]
        rfl
      · rw [if_neg hover, if_neg hfull, if_neg fun h => hfull h.1]
        rfl
  | genr =>
    dsimp only
    rw [Block.beatGenr_crc, lenMax]
    split <;> rfl
  | labelr => exact b.beatLabelr_crc d l
  | drainr => exact b.beatDrainr_crc d l
  | done => rfl
  | error => rfl

end

/-! ## The accumulator after an event (R104) -/

theorem State.takeOffer_crc_of_cons {s : State} {byte : Beat} {rest : List Beat} (hs : s.source = byte :: rest) :
    s.takeOffer.block.crc = crcFeed s.block.crc (fedBytes byte.data s.block) := by
  rw [← Block.beat_crc byte.data byte.last]
  cases hb : s.block.busy with
  | true => rw [State.takeOffer_of_busy hb hs]
  | false => rw [State.takeOffer_of_not_busy hb, Block.beat_of_not_busy hb]

/-- A register write sets the accumulator anew exactly when it is CLEAR or an accepted stream command. -/
theorem writeEffect_crc (i : RegIndex) (v : Word) (b : Block) :
    (writeEffect i v b).crc =
      if i = 0 ∧ (opcodeOf v = 6 ∨ (b.busy = false ∧ 1 ≤ (opcodeOf v).toNat ∧ (opcodeOf v).toNat ≤ 5)) then crcInit
      else b.crc := by
  by_cases hc : (Event.regWrite i v).clears
  · have hop : i = 0 ∧ opcodeOf v = 6 := ⟨hc.1, BitVec.eq_of_toNat_eq hc.2⟩
    rw [writeEffect_clears b hc, if_pos ⟨hop.1, .inl hop.2⟩]
    rfl
  by_cases hs : (Event.regWrite i v).streamCommand ∧ b.busy = false
  · obtain ⟨⟨rfl, h1, h5⟩, hb⟩ := hs
    rw [writeEffect_cmd, commandEffect_start h1 h5 hb, if_pos ⟨rfl, .inr ⟨hb, h1, h5⟩⟩]
    rfl
  · have hquiet := writeEffect_quiet hc fun hst => by simpa [hst] using hs
    refine (congrArg Block.crc hquiet).trans (if_neg ?_).symm
    rintro ⟨hi, h6 | ⟨hb, h1, h5⟩⟩
    · exact hc ⟨hi, congrArg BitVec.toNat h6⟩
    · exact hs ⟨⟨hi, h1, h5⟩, hb⟩

/-- The accumulator after a step is that of the bytes fed by then. -/
theorem step_crc {s t : State} {fed : List Byte} (h : s.block.crc = crcFeed crcInit fed) (hstep : step s = .next t) :
    t.block.crc = crcFeed crcInit (fedAfter s fed) := by
  rcases step_cases hstep with ⟨hi, rfl⟩ | ⟨e, more, hi, rfl⟩
  · simp only [fedAfter, hi, h]
  · cases e with
    | reset => simp only [fedAfter, hi, eventEffect, State.onBlock_block, Block.resetAll_crc, crcFeed_nil]
    | regRead i => simp only [fedAfter, hi, eventEffect, State.readReg_block, h]
    | regWrite i v =>
      simp only [fedAfter, hi, eventEffect, State.onBlock_block, writeEffect_crc]
      split
      · rfl
      · exact h
    | offer =>
      rw [eventEffect]
      cases hsrc : s.source with
      | nil =>
        rw [State.takeOffer_of_nil (s := { s with inputs := more, source := [] }) rfl]
        simp only [fedAfter, hi, hsrc, h]
      | cons byte rest =>
        rw [State.takeOffer_crc_of_cons (s := { s with inputs := more, source := byte :: rest }) rfl]
        simp only [fedAfter, hi, hsrc, crcFeed_append, h]

theorem read_crcCalc_eq_crc32 (b : Block) (fed : List Byte) :
    b.read 7 = crc32 fed ↔ b.crc = crcFeed crcInit fed := by
  rw [Block.read_crcCalc, crc32_eq, BitVec.not_inj]

end Sys2Proof.Machine

open Sys2Proof Sys2Proof.Machine

/-! ## The obligations -/

/-- Settles O43: the accumulator over one step, seen through the final complement. -/
theorem crcCalcIsCrcOfBytesFed : Obligations.CrcCalcIsCrcOfBytesFed := by
  refine ⟨rfl, rfl, fun s t fed h hstep => ?_⟩
  rw [read_crcCalc_eq_crc32] at h ⊢
  exact step_crc h hstep

/-- Settles O44: a changed byte changes the accumulator, and every later byte keeps the two apart. -/
theorem crcDetectsOneByteChange : Obligations.CrcDetectsOneByteChange := by
  intro before after d e hne
  rw [crc32_eq, crc32_eq]
  exact fun h => crcFeed_change_byte crcInit before after hne (BitVec.not_inj.mp h)

/-- Settles O41: the table form from linearity, and the sample entries run. -/
theorem crcTableFormAgrees : Obligations.CrcTableFormAgrees := by
  refine ⟨crcUpdate_eq_table, ?_⟩
  decide

/-- Settles O42: the known string is checked through its type bytes, whose accumulator is the second claim. -/
theorem crcKnownVectors : Obligations.CrcKnownVectors := by
  have htype : crcFeed crcInit [0x52, 0x75, 0x53, 0x74] = 0x2B7BF6C3 := by decide +kernel
  refine ⟨?_, htype, by decide +kernel⟩
  rw [List.append_assoc, crc32, crcFeed_append, htype]
  decide +kernel

end

section
/-! SUPPORT. Proofs of the statements about GEN (42_generate.md): its beat, and what it leaves of a source by where the
first mark is. -/

namespace Sys2Proof.Machine

/-! ## The beat of GENR (R116) -/

/-- Payload byte 2^32: `LenOverflow`, whatever its mark (R118). -/
theorem Block.beatGenr_overflow (d : Byte) (l : Bool) {b : Block} (h : 4 ≤ b.cnt.toNat ∧ b.len = lenMax) :
    b.beatGenr d l = { b with eob := l }.raise .lenOverflow := if_pos h

/-- The beat that does not overflow `LEN`: its updates put together, then the two outcomes at `in_last`. -/
theorem Block.beatGenr_eq (d : Byte) (l : Bool) {b : Block} (h : ¬(4 ≤ b.cnt.toNat ∧ b.len = lenMax)) :
    b.beatGenr d l =
      let b :=
        if b.cnt.toNat < 4 then
          { b with eob := l, crc := crcUpdate b.crc d, type := shiftIn b.type d, cnt := b.cnt + 1 }
        else { b with eob := l, crc := crcUpdate b.crc d, len := b.len + 1 }
      if l then if b.cnt.toNat < 4 then b.raise .truncated else { b with state := .done } else b := by
  rw [Block.beatGenr, if_neg h]
  by_cases h4 : b.cnt.toNat < 4
  · simp only [h4, if_true]
  · simp only [h4, if_false]

/-! ## A string as one number -/

/-- The value of a byte string read as one big-endian number. -/
def bytesValue (bytes : List Byte) : Nat := bytes.foldl (fun acc d => acc * 256 + d.toNat) 0

@[simp] theorem bytesValue_snoc (xs : List Byte) (d : Byte) : bytesValue (xs ++ [d]) = bytesValue xs * 256 + d.toNat := by
  simp [bytesValue]

theorem shiftIn_toNat (w : Word) (d : Byte) : (shiftIn w d).toNat = (w.toNat * 256 + d.toNat) % 2 ^ 32 := by
  have hd : d.toNat < 2 ^ 8 := d.isLt
  have hor : w.toNat <<< 8 ||| d.toNat = w.toNat * 256 + d.toNat := by
    rw [← Nat.shiftLeft_add_eq_or_of_lt hd, Nat.shiftLeft_eq]
  rw [shiftIn, BitVec.toNat_or, BitVec.toNat_shiftLeft, BitVec.toNat_setWidth, ← Nat.or_mod_two_pow, hor]

/-- A field keeps the low 32 bits of the number shifted in (R45). -/
theorem packed_toNat (xs : List Byte) : (packed xs).toNat = bytesValue xs % 2 ^ 32 := by
  induction xs using List.reverseRecOn with
  | nil => rfl
  | append_singleton xs d ih =>
    rw [packed_snoc, shiftIn_toNat, bytesValue_snoc, ih]
    omega

theorem bytesValue_lt (xs : List Byte) : bytesValue xs < 256 ^ xs.length := by
  induction xs using List.reverseRecOn with
  | nil => decide
  | append_singleton xs d ih =>
    have hd : d.toNat < 256 := d.isLt
    rw [bytesValue_snoc, List.length_append, List.length_singleton, pow_succ]
    omega

theorem packed_toNat_of_short {xs : List Byte} (h : xs.length ≤ 4) : (packed xs).toNat = bytesValue xs := by
  have hpow : 256 ^ xs.length ≤ 256 ^ 4 := Nat.pow_le_pow_right (by decide) h
  have hlt := bytesValue_lt xs
  rw [packed_toNat]
  exact Nat.mod_eq_of_lt (by omega)

/-! ## The registers of GEN after a string -/

section
variable (b : Block) {xs : List Byte}

/-- While the type is incomplete, `CNT` counts the bytes and `TYPE` holds their number (R117). -/
theorem genAfter_short (h : xs.length ≤ 4) :
    (genAfter b xs).cnt.toNat = xs.length ∧ (genAfter b xs).type.toNat = bytesValue xs ∧ (genAfter b xs).len = 0 := by
  refine ⟨?_, ?_, ?_⟩
  · rw [genAfter, ofNat_min_toNat _ (by decide), min_eq_left h]
  · rw [genAfter, List.take_of_length_le h, packed_toNat_of_short h]
  · exact congrArg (BitVec.ofNat 32) (Nat.sub_eq_zero_of_le h)

/-- Once the type is complete, every further byte counts in `LEN` (R116). -/
theorem genAfter_long (h4 : 4 ≤ xs.length) (hl : xs.length ≤ 2 ^ 32 + 3) :
    (genAfter b xs).type = be32Of xs ∧ (genAfter b xs).len.toNat = xs.length - 4 ∧ (genAfter b xs).cnt = 4 := by
  refine ⟨(be32Of_eq_packed h4).symm, toNat_ofNat_of_le (by omega), ?_⟩
  rw [genAfter, min_eq_right h4]
  rfl

/-- `in_last` on the 1st, 2nd or 3rd byte (R117). -/
theorem genAfter_truncated (d : Byte) (h : xs.length + 1 < 4) :
    (genAfter b xs).beat d true = { genAfter b (xs ++ [d]) with eob := true }.raise .truncated := by
  rw [genAfter_shift b xs d true (by omega), if_pos rfl, if_pos (by simpa using h)]

/-- `in_last` on a later byte, short of the overflow (R115). -/
theorem genAfter_done (d : Byte) (h4 : 4 ≤ xs.length + 1) (hl : xs.length < 2 ^ 32 + 3) :
    (genAfter b xs).beat d true = { genAfter b (xs ++ [d]) with eob := true, state := .done } := by
  rw [genAfter_shift b xs d true hl, if_pos rfl, if_neg (by simpa using h4)]

end

/-! ## GEN over the source -/

/-- A source whose first mark is on byte `n`: the unmarked bytes, that byte, and what follows. -/
theorem firstLast_split {xs : List Beat} {n : Nat} (h : firstLast xs = some (n - 1)) (h1 : 1 ≤ n) :
    ∃ (ys : List Byte) (d : Byte), (ys ++ [d]).length = n ∧ ys.length + 1 = n ∧
      xs = unmarked ys ++ ⟨d, true⟩ :: xs.drop n ∧ (xs.map Beat.data).take n = ys ++ [d] := by
  obtain ⟨ys, d, hys, hxs⟩ := firstLast_some h
  have htake := take_to_mark hys hxs
  rw [Nat.sub_add_cancel h1] at hxs htake
  have hlen : ys.length + 1 = n := by omega
  exact ⟨ys, d, List.length_append.trans hlen, hlen, hxs, htake⟩

/-- The first byte after unmarked ones carries the first mark exactly when it is marked. -/
theorem firstLast_unmarked_cons (ys : List Byte) (x : Beat) (rest : List Beat) :
    firstLast (unmarked ys ++ x :: rest) = some ys.length ↔ x.last = true := by
  induction ys with
  | nil => cases h : x.last <;> simp [firstLast, List.findIdx?_cons, h]
  | cons y ys ih => simpa [firstLast, List.findIdx?_cons] using ih

/-- GEN ends at the byte after the unmarked `ys`: what it leaves of the machine. -/
theorem gen_feed {s t : State} (hb : s.block.busy = false) (ht : t = s.onBlock (Block.startStream .gen))
    {ys : List Byte} {x : Beat} {rest : List Beat} (hs : s.source = unmarked ys ++ x :: rest)
    (hl : ys.length ≤ 2 ^ 32 + 3) (he : ((genAfter s.block ys).beat x.data x.last).busy = false) :
    t.feed s.source.length = { t with block := (genAfter s.block ys).beat x.data x.last, source := rest } := by
  rw [← gen_beats hb ys hl] at he ⊢
  exact State.feed_started ht hs (by rw [gen_beats hb ys hl]; rfl) he

end Sys2Proof.Machine

open Sys2Proof Sys2Proof.Machine

/-! ## The obligations -/

/-- Settles O49: the source is cut at its first mark, or at payload byte 2^32, and GEN's closed form gives the
registers there. -/
theorem genWholeInput : Obligations.GenWholeInput := by
  rintro s t ign hb hexec bytes r rfl rfl
  have ht : t = s.onBlock (Block.startStream .gen) := (Host.Outcome.next.inj hexec).symm
  refine ⟨fun n hfirst h1 hn => ?truncated, fun n hfirst h4 hn => ?done, fun hlong hunmarked => ?overflow,
    fun hshort hnone => ?unfinished⟩
  case truncated =>
    obtain ⟨ys, d, hlen, hys, hsrc, htake⟩ := firstLast_split hfirst h1
    have hbeat := genAfter_truncated s.block d (xs := ys) (by omega)
    obtain ⟨hcnt, htype, hzero⟩ := genAfter_short s.block (xs := ys ++ [d]) (by omega)
    rw [gen_feed hb ht hsrc (by omega) (by rw [hbeat]; rfl), hbeat, htake]
    exact ⟨rfl, rfl, rfl, hcnt.trans hlen, htype, (read_crcCalc_eq_crc32 _ _).mpr rfl, hzero, rfl⟩
  case done =>
    obtain ⟨ys, d, hlen, hys, hsrc, htake⟩ := firstLast_split hfirst (by omega)
    have hbeat := genAfter_done s.block d (xs := ys) (by omega) (by omega)
    obtain ⟨htype, hpayload, hcnt⟩ := genAfter_long s.block (xs := ys ++ [d]) (by omega) (by omega)
    rw [gen_feed hb ht hsrc (by omega) (by rw [hbeat]; rfl), hbeat, ← be32Of_take _ h4, htake]
    exact ⟨rfl, rfl, htype, hlen ▸ hpayload, (read_crcCalc_eq_crc32 _ _).mpr rfl, rfl, hcnt, rfl, rfl⟩
  case overflow =>
    obtain ⟨ys, x, hys, hsrc, htake, -⟩ := split_unmarked hlong hunmarked
    have hbeat := genAfter_overflow s.block x.data x.last hys
    obtain ⟨htype, hlen, hcnt⟩ := genAfter_long s.block (xs := ys) (by omega) (by omega)
    have hmax : (genAfter s.block ys).len = 0xFFFFFFFF := BitVec.eq_of_toNat_eq (by rw [hlen, hys]; rfl)
    have hmark := firstLast_unmarked_cons ys x (s.source.drop (2 ^ 32 + 3 + 1))
    rw [← hsrc, hys] at hmark
    rw [gen_feed hb ht hsrc (by omega) (by rw [hbeat]; rfl), hbeat,
      ← be32Of_take _ (show 4 ≤ 2 ^ 32 + 3 by decide), htake]
    exact ⟨rfl, rfl, rfl, hmax, (read_crcCalc_eq_crc32 _ _).mpr rfl, htype, hcnt, hmark.symm⟩
  case unfinished =>
    have hbeats := gen_beats hb (s.source.map Beat.data) (by rw [List.length_map]; omega)
    rw [← firstLast_none hnone] at hbeats
    rw [State.feed_started_all ht (by rw [hbeats]; rfl), hbeats]
    exact ⟨rfl, rfl⟩

/-- Settles O21: the beat in its two cases, overflow or not. -/
theorem beatInGenerate : Obligations.BeatInGenerate := by
  intro s d l rest more hstate hsrc hi
  have hbusy : s.block.busy = true := by rw [Block.busy, hstate]; rfl
  have hbeat : s.block.beat d l = s.block.beatGenr d l := by rw [Block.beat, hstate]
  rw [step_offer_of_busy hbusy hsrc hi, hbeat]
  constructor
  · intro hover
    rw [Block.beatGenr_overflow d l hover]
    rfl
  · intro hover
    refine ⟨_, rfl, ?_⟩
    rw [Block.beatGenr_eq d l hover]
    rfl

end

section
/-! SUPPORT. Proofs of the statements about the beats of VERIFY and VERIFYS (43_verify.md R126 to R129, R136): what each
does in its state, and the delay line's release said by the number of bytes taken. -/

namespace Sys2Proof.Machine

/-! ## A beat is the beat of its state (R57) -/

section
variable {b : Block} (d : Byte) (l : Bool)

theorem Block.busy_of_state {q : Seq} (h : b.state = q) (hq : q.busy = true) : b.busy = true := by
  rw [Block.busy, h, hq]

theorem Block.beat_of_lenf (h : b.state = .lenf) : b.beat d l = b.beatLenf d l := by rw [Block.beat, h]
theorem Block.beat_of_typef (h : b.state = .typef) : b.beat d l = b.beatTypef d l := by rw [Block.beat, h]
theorem Block.beat_of_payld (h : b.state = .payld) : b.beat d l = b.beatPayld d l := by rw [Block.beat, h]
theorem Block.beat_of_crcf (h : b.state = .crcf) : b.beat d l = b.beatCrcf d l := by rw [Block.beat, h]
theorem Block.beat_of_slice (h : b.state = .slice) : b.beat d l = b.beatSlice d l := by rw [Block.beat, h]

end

/-! ## The hand-over out of the type field (R127) -/

/-- The state after the type field depends on `LEN`; nothing else does. -/
theorem typeHandOver_eq (b : Block) :
    (if b.len = 0 then { b with cnt := 0, state := .crcf } else { b with cnt := 0, state := .payld }) =
      { b with cnt := 0, state := if b.len = 0 then .crcf else .payld } := by
  split <;> rfl

/-! ## The delay line (R136) -/

/-- The counter of VERIFYS stops at 8, from any value. -/
theorem satInc_eight (c : Word) : satInc c 8 = if 7 ≤ c.toNat then 8 else c + 1 := by
  apply BitVec.eq_of_toNat_eq
  rw [toNat_satInc c (by decide)]
  split <;> bv_omega

/-- The delay line fills for 4 bytes, then releases 4 type bytes, then payload bytes. -/
theorem Block.releaseOldest_eq (b : Block) :
    b.releaseOldest =
      if b.cnt.toNat < 4 then b
      else if b.cnt.toNat < 8 then
        { b with crc := crcUpdate b.crc (byte0 b.crcRx), type := shiftIn b.type (byte0 b.crcRx) }
      else { b with crc := crcUpdate b.crc (byte0 b.crcRx), len := b.len + 1 } := by
  by_cases h4 : b.cnt.toNat < 4
  · rw [if_pos h4, Block.releaseOldest_of_filling h4]
  · rw [if_neg h4, Block.releaseOldest, if_pos (Nat.not_lt.mp h4)]

/-- Payload byte 2^32: `LenOverflow`, whatever its mark (R138). -/
theorem Block.beatSlice_overflow (d : Byte) (l : Bool) {b : Block} (h : 8 ≤ b.cnt.toNat ∧ b.len = lenMax) :
    b.beatSlice d l = { b with eob := l }.raise .lenOverflow := if_pos h

/-- The beat that does not overflow `LEN`: the release, then the shift, then the outcomes at `in_last`. -/
theorem Block.beatSlice_eq (d : Byte) (l : Bool) {b : Block} (h : ¬(8 ≤ b.cnt.toNat ∧ b.len = lenMax)) :
    b.beatSlice d l =
      let b := { b.releaseOldest with eob := l, crcRx := shiftIn b.crcRx d, cnt := satInc b.cnt 8 }
      if l then if b.cnt.toNat < 8 then b.raise .truncated else b.compareChecksum else b := by
  rw [Block.beatSlice, if_neg h, Block.releaseOldest_eob, Block.releaseOldest_frame]

end Sys2Proof.Machine

open Sys2Proof Sys2Proof.Machine

/-! ## The obligations -/

/-- Settles O16. -/
theorem beatInLengthField : Obligations.BeatInLengthField := by
  intro s d l rest more hstate hsrc hi
  refine ⟨_, rfl, ?_⟩
  rw [step_offer_of_busy (Block.busy_of_state hstate rfl) hsrc hi, Block.beat_of_lenf d l hstate]
  rfl

/-- Settles O17: the two hand-overs differ in `STATE` alone. -/
theorem beatInTypeField : Obligations.BeatInTypeField := by
  intro s d l rest more hstate hsrc hi
  refine ⟨_, rfl, ?_⟩
  rw [step_offer_of_busy (Block.busy_of_state hstate rfl) hsrc hi, Block.beat_of_typef d l hstate, ← typeHandOver_eq]
  rfl

/-- Settles O18. -/
theorem beatInPayload : Obligations.BeatInPayload := by
  intro s d l rest more hstate hsrc hi
  refine ⟨_, rfl, ?_⟩
  rw [step_offer_of_busy (Block.busy_of_state hstate rfl) hsrc hi, Block.beat_of_payld d l hstate]
  rfl

/-- Settles O19. -/
theorem beatInChecksumField : Obligations.BeatInChecksumField := by
  intro s d l rest more hstate hsrc hi
  refine ⟨_, rfl, ?_⟩
  rw [step_offer_of_busy (Block.busy_of_state hstate rfl) hsrc hi, Block.beat_of_crcf d l hstate]
  rfl

/-- Settles O20: the beat in its two cases, overflow or not; the release by the number of bytes taken. -/
theorem beatInSlice : Obligations.BeatInSlice := by
  intro s d l rest more hstate hsrc hi
  rw [step_offer_of_busy (Block.busy_of_state hstate rfl) hsrc hi, Block.beat_of_slice d l hstate]
  constructor
  · intro hover
    rw [Block.beatSlice_overflow d l hover]
    rfl
  · intro hover
    refine ⟨_, _, _, rfl, rfl, rfl, ?_⟩
    rw [Block.beatSlice_eq d l hover, satInc_eight, Block.releaseOldest_eq]
    rfl

end

section
/-! SUPPORT. Proofs of the statements about whole frames and slices (43_verify.md R132, R133, R137, R139): the comparison
that ends VERIFY and VERIFYS, and what each leaves of a source by where its first mark is. -/

namespace Sys2Proof.Machine

/-! ## The comparison (R130) -/

section
variable (b : Block)

/-- The comparison ends the command in DONE or ERROR, and writes `STATE` and `ERR` alone. -/
theorem Block.compareChecksum_cases :
    b.crcRx = ~~~ b.crc ∧ b.compareChecksum = { b with state := .done } ∨
      b.crcRx ≠ ~~~ b.crc ∧ b.compareChecksum = { b with err := 3, state := .error } := by
  by_cases h : b.crcRx = ~~~ b.crc
  · exact .inl ⟨h, if_pos h⟩
  · exact .inr ⟨h, if_neg h⟩

theorem Block.compareChecksum_frame :
    b.compareChecksum = { b with state := b.compareChecksum.state, err := b.compareChecksum.err } := by
  rcases b.compareChecksum_cases with ⟨-, hcmp⟩ | ⟨-, hcmp⟩ <;> rw [hcmp]

@[simp] theorem Block.compareChecksum_op : b.compareChecksum.op = b.op := by rw [Block.compareChecksum_frame]
@[simp] theorem Block.compareChecksum_len : b.compareChecksum.len = b.len := by rw [Block.compareChecksum_frame]
@[simp] theorem Block.compareChecksum_type : b.compareChecksum.type = b.type := by rw [Block.compareChecksum_frame]
@[simp] theorem Block.compareChecksum_crcRx : b.compareChecksum.crcRx = b.crcRx := by rw [Block.compareChecksum_frame]
@[simp] theorem Block.compareChecksum_cnt : b.compareChecksum.cnt = b.cnt := by rw [Block.compareChecksum_frame]
@[simp] theorem Block.compareChecksum_eob : b.compareChecksum.eob = b.eob := by rw [Block.compareChecksum_frame]

theorem Block.compareChecksum_not_busy : b.compareChecksum.busy = false := by
  rcases b.compareChecksum_cases with ⟨-, hcmp⟩ | ⟨-, hcmp⟩ <;> rw [hcmp] <;> rfl

/-- The outcome as a host sees it, from `CRC_RX` and `CRC_CALC`. -/
theorem Block.compareChecksum_outcome (herr : b.err = 0) :
    (b.compareChecksum.crcRx = b.compareChecksum.read 7 →
      b.compareChecksum.state = .done ∧ b.compareChecksum.err = 0) ∧
    (b.compareChecksum.crcRx ≠ b.compareChecksum.read 7 →
      b.compareChecksum.state = .error ∧ b.compareChecksum.err = 3) := by
  rw [Block.read_crcCalc, Block.compareChecksum_crc, Block.compareChecksum_crcRx]
  rcases b.compareChecksum_cases with ⟨h, hcmp⟩ | ⟨h, hcmp⟩ <;> rw [hcmp]
  · exact ⟨fun _ => ⟨rfl, herr⟩, absurd h⟩
  · exact ⟨fun heq => absurd heq h, fun _ => ⟨rfl, rfl⟩⟩

/-- The outcome when the accumulator was fed `fed`: DONE exactly when `CRC_RX` is the CRC-32 of `fed`. -/
theorem Block.compareChecksum_fed {fed : List Byte} (hcrc : b.crc = crcFeed crcInit fed) :
    (b.compareChecksum.state = .done ↔ b.crcRx = crc32 fed) ∧
      (b.crcRx ≠ crc32 fed → b.compareChecksum.state = .error ∧ b.compareChecksum.err = 3) := by
  rw [crc32_eq, ← hcrc]
  rcases b.compareChecksum_cases with ⟨h, hcmp⟩ | ⟨h, hcmp⟩ <;> rw [hcmp]
  · exact ⟨⟨fun _ => h, fun _ => rfl⟩, absurd h⟩
  · exact ⟨⟨nofun, fun heq => absurd heq h⟩, fun _ => ⟨rfl, rfl⟩⟩

end

/-! ## A stream command over the source -/

section
variable {s t : State} {c : StreamCmd} {a : Block} (ht : t = s.onBlock (Block.startStream c))
include ht

/-- A command that stands at `a` after the unmarked bytes `ys` and ends at the next one. -/
theorem State.feed_command {ys : List Byte} {x : Beat} {rest : List Beat} (hs : s.source = unmarked ys ++ x :: rest)
    (hbeats : (s.block.startStream c).beats (unmarked ys) = a) (hbusy : a.busy = true)
    (hend : (a.beat x.data x.last).busy = false) :
    t.feed s.source.length = { t with block := a.beat x.data x.last, source := rest } := by
  subst hbeats
  exact State.feed_started ht hs hbusy hend

/-- A command that stands at `a` after the whole source, none of which is marked (R206). -/
theorem State.feed_command_unfinished (hnone : firstLast s.source = none)
    (hbeats : (s.block.startStream c).beats (unmarked (s.source.map Beat.data)) = a) (hbusy : a.busy = true) :
    t.feed s.source.length = { t with block := a, source := [] } := by
  rw [← firstLast_none hnone] at hbeats
  subst hbeats
  exact State.feed_started_all ht hbusy

end

/-! ## VERIFY over the source -/

theorem map_data_unmarked (ys : List Byte) : (unmarked ys).map Beat.data = ys := by
  simp [unmarked, Function.comp_def]

/-- The length field that VERIFY holds is the one the source begins with. -/
theorem lengthField_eq {xs zs : List Beat} {ys : List Byte} (hxs : xs = unmarked ys ++ zs) (h4 : 4 ≤ ys.length) :
    be32Of (xs.map Beat.data) = packed (ys.take 4) := by
  subst hxs
  rw [List.map_append, map_data_unmarked, be32Of_eq_packed (by rw [List.length_append]; omega),
    List.take_append_of_le_length h4]

/-- A marked byte short of the frame's last: `Truncated` (R131). -/
theorem verifyAfter_truncated (b : Block) {ys : List Byte} (d : Byte)
    (h : ys.length < 8 ∨ ys.length < 11 + (packed (ys.take 4)).toNat) :
    ((verifyAfter b ys).beat d true).state = .error ∧ ((verifyAfter b ys).beat d true).err = 2 := by
  simpa using verifyAfter_shift b ys d true h

/-- VERIFY over a source with a whole frame, marked at most on its last byte `x`: the comparison, whatever follows. -/
theorem verify_feed_frame {s t : State} (hb : s.block.busy = false) (ht : t = s.onBlock (Block.startStream .verify))
    {ys : List Byte} {x : Beat} {rest : List Beat} (hs : s.source = unmarked ys ++ x :: rest)
    (hF : ys.length = 11 + (packed (ys.take 4)).toNat) :
    t.feed s.source.length =
      { t with
        block := { verifyAfter s.block (ys ++ [x.data]) with eob := x.last }.compareChecksum, source := rest } := by
  have hlast := verifyAfter_last s.block x.data x.last hF
  rw [← hlast]
  refine State.feed_command ht hs (verify_beats hb ys (.inr hF.le)) (verifyAfter_busy _ _) ?_
  rw [hlast]
  exact Block.compareChecksum_not_busy _

/-- The registers of VERIFY at the end of a frame that `bytes` begins with: each field in its place (R61). -/
theorem verifyAfter_whole (b : Block) {bytes : List Byte} {L : Nat} (hL : (be32Of bytes).toNat = L)
    (hlen : 12 + L ≤ bytes.length) :
    (verifyAfter b (bytes.take (12 + L))).len.toNat = L ∧
      (verifyAfter b (bytes.take (12 + L))).type = be32Of (bytes.drop 4) ∧
      (verifyAfter b (bytes.take (12 + L))).crc = crcFeed crcInit ((bytes.drop 4).take (4 + L)) ∧
      (verifyAfter b (bytes.take (12 + L))).crcRx = be32Of (bytes.drop (8 + L)) ∧
      (verifyAfter b (bytes.take (12 + L))).err = 0 := by
  have hlen4 : 4 ≤ (bytes.drop 4).length := by rw [List.length_drop]; omega
  have hlenL : 4 ≤ (bytes.drop (8 + L)).length := by rw [List.length_drop]; omega
  have hfield : packed ((bytes.take (12 + L)).take 4) = be32Of bytes := by
    rw [List.take_take, min_eq_left (by omega), be32Of_eq_packed (by omega)]
  have hslice : (bytes.take (12 + L)).drop 4 = (bytes.drop 4).take (8 + L) := by
    rw [List.drop_take, show 12 + L - 4 = 8 + L by omega]
  have htype : packed (((bytes.drop 4).take (8 + L)).take 4) = be32Of (bytes.drop 4) := by
    rw [List.take_take, min_eq_left (by omega), be32Of_eq_packed hlen4]
  have hbody : ((bytes.drop 4).take (8 + L)).take (4 + L) = (bytes.drop 4).take (4 + L) := by
    rw [List.take_take, min_eq_left (by omega)]
  have hrx : packed (((bytes.drop 4).take (8 + L)).drop (4 + L)) = be32Of (bytes.drop (8 + L)) := by
    rw [List.drop_take, List.drop_drop, show 8 + L - (4 + L) = 4 by omega, show 4 + (4 + L) = 8 + L by omega,
      be32Of_eq_packed hlenL]
  rw [verifyAfter_crcf b (by rw [hfield, hL, List.length_take]; omega), hfield, hL, hslice, htype, hbody, hrx]
  exact ⟨rfl, rfl, rfl, rfl, rfl⟩

end Sys2Proof.Machine

open Sys2Proof Sys2Proof.Machine

/-! ## The obligations -/

/-- Settles O46: the source is cut at its first mark, or before the frame's last byte, and VERIFY's closed form gives the
registers there. -/
theorem verifyWholeFrame : Obligations.VerifyWholeFrame := by
  rintro s t ign hb hexec bytes L F r rfl rfl rfl rfl
  have ht : t = s.onBlock (Block.startStream .verify) := (Host.Outcome.next.inj hexec).symm
  refine ⟨fun e hfirst hearly => ?truncated, fun hlong hunmarked => ?whole, fun hshort hnone => ?unfinished⟩
  case truncated =>
    obtain ⟨ys, d, hys, hsrc⟩ := firstLast_some hfirst
    have hstop : ys.length < 8 ∨ ys.length < 11 + (packed (ys.take 4)).toNat := by
      by_cases h4 : ys.length < 4
      · omega
      · rw [lengthField_eq hsrc (by omega)] at hearly
        omega
    obtain ⟨hstate, herr⟩ := verifyAfter_truncated s.block d hstop
    rw [State.feed_command ht hsrc (verify_beats hb ys (by omega)) (verifyAfter_busy _ _)
      (by rw [Block.busy, hstate]; rfl)]
    exact ⟨rfl, hstate, herr⟩
  case whole =>
    obtain ⟨ys, x, hys, hsrc, -, htake⟩ := split_unmarked (by omega) hunmarked
    have hfield := lengthField_eq hsrc (by omega)
    have hmark := firstLast_unmarked_cons ys x (s.source.drop (12 + (be32Of (s.source.map Beat.data)).toNat - 1 + 1))
    rw [← hsrc, hys] at hmark
    rw [Nat.sub_add_cancel (by omega)] at hsrc htake
    rw [verify_feed_frame hb ht hsrc (by rw [← hfield]; omega), ← htake]
    obtain ⟨hlen, htype, hcrc, hrx, herr⟩ := verifyAfter_whole s.block rfl (by rw [List.length_map]; exact hlong)
    have hdrop : 12 + (be32Of (s.source.map Beat.data)).toNat - 4 = 8 + (be32Of (s.source.map Beat.data)).toNat := by
      omega
    refine ⟨rfl, ?_, ?_, ?_, ?_, ?_, Block.compareChecksum_outcome _ herr⟩
    · rw [Block.compareChecksum_len, hlen]
    · rw [Block.compareChecksum_type, htype]
    · rw [read_crcCalc_eq_crc32, Block.compareChecksum_crc, hcrc]
    · rw [Block.compareChecksum_crcRx, hrx, hdrop]
    · rw [Block.compareChecksum_eob, hmark]
  case unfinished =>
    have hstop : (s.source.map Beat.data).length ≤ 8 ∨
        (s.source.map Beat.data).length ≤ 11 + (packed ((s.source.map Beat.data).take 4)).toNat := by
      by_cases h4 : (s.source.map Beat.data).length < 4
      · omega
      · rw [be32Of_eq_packed (by omega)] at hshort
        rw [List.length_map]
        omega
    rw [State.feed_command_unfinished ht hnone (verify_beats hb _ hstop) (verifyAfter_busy _ _)]
    exact ⟨rfl, verifyAfter_busy _ _⟩

end

section
/-! SUPPORT. Proofs of the statements about slices (43_verify.md R137, R138, R139): what VERIFYS leaves of a source, and
VERIFY and VERIFYS side by side on a frame and its slice. -/

namespace Sys2Proof.Machine

/-! ## VERIFYS over the source -/

section
variable (b : Block) {xs : List Byte}

theorem verifysAfter_cnt : (verifysAfter b xs).cnt.toNat = min xs.length 8 := ofNat_min_toNat _ (by decide)

/-- `in_last` before the 8th byte (R136). -/
theorem verifysAfter_truncated (d : Byte) (h : xs.length + 1 < 8) :
    (verifysAfter b xs).beat d true = { verifysAfter b (xs ++ [d]) with eob := true }.raise .truncated := by
  rw [verifysAfter_shift b xs d true (by omega), if_pos rfl, if_pos (by simpa using h)]

/-- `in_last` on a later byte, short of the overflow, brings the comparison (R136). -/
theorem verifysAfter_last (d : Byte) (h8 : 8 ≤ xs.length + 1) (hl : xs.length < 2 ^ 32 + 7) :
    (verifysAfter b xs).beat d true = { verifysAfter b (xs ++ [d]) with eob := true }.compareChecksum := by
  rw [verifysAfter_shift b xs d true hl, if_pos rfl, if_neg (by simpa using h8)]

/-- The registers of VERIFYS once the delay line has released the whole type: the last four bytes are the checksum field,
what lies between is the payload (R137). -/
theorem verifysAfter_whole (h8 : 8 ≤ xs.length) (hl : xs.length ≤ 2 ^ 32 + 7) :
    (verifysAfter b xs).type = be32Of xs ∧ (verifysAfter b xs).len.toNat = xs.length - 8 ∧
      (verifysAfter b xs).crcRx = be32Of (xs.drop (xs.length - 4)) ∧ (verifysAfter b xs).cnt = 8 := by
  refine ⟨?_, toNat_ofNat_of_le (by omega), packed_eq_be32Of_drop (by omega), ?_⟩
  · rw [verifysAfter, List.take_take, min_eq_left (by omega), be32Of_eq_packed (by omega)]
  · rw [verifysAfter, min_eq_right h8]
    rfl

end

/-! ## A frame and its slice -/

section
variable (type crc : Word) (payload : List Byte)

theorem sliceOf_length : (sliceOf type payload crc).length = 8 + payload.length := by
  simp only [sliceOf, List.length_append, bytesOf_length]
  omega

theorem packed_sliceOf : packed (sliceOf type payload crc) = crc := by
  have h4 : 4 ≤ (sliceOf type payload crc).length := by rw [sliceOf_length]; omega
  rw [packed_eq_be32Of_drop h4, sliceOf_length, show 8 + payload.length - 4 = 4 + payload.length by omega, sliceOf_crc,
    be32Of_eq_packed (bytesOf_length crc).ge]
  exact packed_bytesOf crc

end

/-- The registers that VERIFYS compares at the end of a slice: those of VERIFY on the frame, but `OP` and `CNT`. -/
def verifysCompared (b : Block) (type : Word) (payload : List Byte) (crc : Word) : Block :=
  { verifyCompared b type payload crc with state := .slice, op := 2, cnt := 8 }

theorem verifysAfter_slice (b : Block) (type crc : Word) (payload : List Byte) :
    verifysAfter b (sliceOf type payload crc) = { verifysCompared b type payload crc with eob := false } := by
  have hbody : 8 + payload.length - 4 = 4 + payload.length := by omega
  have hcnt : min (8 + payload.length) 8 = 8 := by omega
  have htype : (bytesOf type ++ payload).take 4 = bytesOf type := List.take_left' (bytesOf_length type)
  rw [verifysAfter, packed_sliceOf, sliceOf_length, hbody, sliceOf_body, htype, packed_bytesOf, hcnt,
    Nat.add_sub_cancel_left]
  rfl

/-- VERIFYS, executed and then fed a whole slice. -/
theorem exec_verifys_feed {s : State} (ign : BitVec 28) (hb : s.block.busy = false) (type crc : Word)
    {payload : List Byte} (hl : payload.length ≤ 0xFFFFFFFF) (hs : s.source = markLast (sliceOf type payload crc)) :
    ∃ g : State, exec (.verifys ign) s = .next g ∧
      g.feed g.source.length =
        { s with block := (verifysCompared s.block type payload crc).compareChecksum, source := [] } := by
  have hlen := sliceOf_length type crc payload
  have hne : sliceOf type payload crc ≠ [] := List.ne_nil_of_length_pos (by omega)
  have hdrop : (sliceOf type payload crc).dropLast.length = 7 + payload.length := by
    rw [List.length_dropLast]
    omega
  have hbeats := verifys_beats hb (sliceOf type payload crc).dropLast (by omega)
  refine ⟨_, exec_verifys ign s, ?_⟩
  rw [State.onBlock_source, State.feed_markLast .verifys hs (by rw [hbeats]; rfl), Block.beats_markLast _ hne, hbeats,
    verifysAfter_last _ _ (by omega) (by omega), List.dropLast_append_getLast hne, verifysAfter_slice]
  rfl

/-- The two comparisons have one outcome. -/
theorem verifysCompared_outcome (b : Block) (type : Word) (payload : List Byte) (crc : Word) :
    (verifysCompared b type payload crc).compareChecksum =
      { (verifyCompared b type payload crc).compareChecksum with op := 2, cnt := 8 } := by
  rcases (verifyCompared b type payload crc).compareChecksum_cases with ⟨h, hcmp⟩ | ⟨h, hcmp⟩
  · rw [hcmp]
    exact if_pos h
  · rw [hcmp]
    exact if_neg h

/-- VERIFY on a frame and VERIFYS on its slice, side by side: the same block, but for `OP` and `CNT`. -/
theorem exec_frame_and_slice {s : State} (hb : s.block.busy = false) (type crc : Word) {payload : List Byte}
    (hl : payload.length ≤ 0xFFFFFFFF) :
    ∃ f g : State,
      exec (.verify 0) { s with source := markLast (frameOf (BitVec.ofNat 32 payload.length) type payload crc) } = .next f ∧
      exec (.verifys 0) { s with source := markLast (sliceOf type payload crc) } = .next g ∧
      (f.feed f.source.length).block = (verifyCompared s.block type payload crc).compareChecksum ∧
      (g.feed g.source.length).block =
        { (verifyCompared s.block type payload crc).compareChecksum with op := 2, cnt := 8 } := by
  obtain ⟨f, hexec, hverify⟩ := exec_verify_feed
    (s := { s with source := markLast (frameOf (BitVec.ofNat 32 payload.length) type payload crc) }) 0 hb type crc hl rfl
  obtain ⟨g, hexec', hverifys⟩ := exec_verifys_feed
    (s := { s with source := markLast (sliceOf type payload crc) }) 0 hb type crc hl rfl
  rw [verifysCompared_outcome] at hverifys
  exact ⟨f, g, hexec, hexec', congrArg State.block hverify, congrArg State.block hverifys⟩

end Sys2Proof.Machine

open Sys2Proof Sys2Proof.Machine

/-! ## The obligations -/

/-- Settles O47: the source is cut at its first mark, or before byte 2^32 + 8, and VERIFYS's closed form gives the
registers there. -/
theorem verifysWholeSlice : Obligations.VerifysWholeSlice := by
  rintro s t ign hb hexec bytes r rfl rfl
  have ht : t = s.onBlock (Block.startStream .verifys) := (Host.Outcome.next.inj hexec).symm
  refine ⟨fun n hfirst h1 hn => ?truncated, fun n hfirst h8 hn => ?whole, fun hlong hunmarked => ?overflow,
    fun hshort hnone => ?unfinished⟩
  case truncated =>
    obtain ⟨ys, d, hlen, hys, hsrc, -⟩ := firstLast_split hfirst h1
    have hbeat := verifysAfter_truncated s.block d (xs := ys) (by omega)
    have hcnt := verifysAfter_cnt s.block (xs := ys ++ [d])
    rw [hlen, min_eq_left hn.le] at hcnt
    rw [State.feed_command ht hsrc (verifys_beats hb ys (by omega)) rfl (by rw [hbeat]; rfl), hbeat]
    exact ⟨rfl, rfl, rfl, hcnt⟩
  case whole =>
    obtain ⟨ys, d, hlen, hys, hsrc, htake⟩ := firstLast_split hfirst (by omega)
    have hbeat := verifysAfter_last s.block d (xs := ys) (by omega) (by omega)
    rw [State.feed_command ht hsrc (verifys_beats hb ys (by omega)) rfl
      (by rw [hbeat]; exact Block.compareChecksum_not_busy _), hbeat]
    obtain ⟨htype, hpayload, hrx, hcnt⟩ := verifysAfter_whole s.block (xs := ys ++ [d]) (by omega) (by omega)
    rw [hlen] at hpayload hrx
    have hfield : be32Of ((s.source.map Beat.data).drop (n - 4)) = be32Of ((ys ++ [d]).drop (n - 4)) := by
      rw [← htake, List.drop_take, be32Of_take _ (by omega)]
    have hbody : (ys ++ [d]).take ((ys ++ [d]).length - 4) = (s.source.map Beat.data).take (n - 4) := by
      rw [hlen, ← htake, List.take_take, min_eq_left (by omega)]
    refine ⟨rfl, ?_, ?_, ?_, ?_, ?_, ?_, Block.compareChecksum_outcome _ rfl⟩
    · rw [Block.compareChecksum_type, htype, ← htake, be32Of_take _ (by omega)]
    · rw [Block.compareChecksum_len, hpayload]
    · rw [read_crcCalc_eq_crc32, Block.compareChecksum_crc, ← hbody]
      rfl
    · rw [Block.compareChecksum_crcRx, hrx, hfield]
    · rw [Block.compareChecksum_cnt, hcnt]
    · rw [Block.compareChecksum_eob]
  case overflow =>
    obtain ⟨ys, x, hys, hsrc, -⟩ := split_unmarked hlong hunmarked
    have hbeat := verifysAfter_overflow s.block x.data x.last hys
    rw [State.feed_command ht hsrc (verifys_beats hb ys (by omega)) rfl (by rw [hbeat]; rfl), hbeat]
    exact ⟨rfl, rfl, rfl⟩
  case unfinished =>
    have hbeats := verifys_beats hb (s.source.map Beat.data) (by rw [List.length_map]; omega)
    rw [State.feed_command_unfinished ht hnone hbeats rfl]
    exact ⟨rfl, rfl⟩

/-- Settles O48: both commands compare the same registers. -/
theorem sliceAndFrameAgree : Obligations.SliceAndFrameAgree := by
  intro s type crc payload hb hl
  obtain ⟨f, g, hexec, hexec', hverify, hverifys⟩ := exec_frame_and_slice hb type crc hl
  refine ⟨f, g, hexec, hexec', ?_⟩
  rintro v w rfl rfl
  rw [hverify, hverifys]
  refine ⟨rfl, rfl, ?_, rfl, rfl, rfl, rfl, ?_, ?_, rfl, ?_, rfl, ?_⟩
  · rw [Block.read_props, Block.read_props]
  · rcases (verifyCompared s.block type payload crc).compareChecksum_cases with ⟨-, hcmp⟩ | ⟨-, hcmp⟩ <;> rw [hcmp]
    · exact .inl rfl
    · exact .inr ⟨rfl, rfl⟩
  · exact Block.compareChecksum_op _
  · exact Block.compareChecksum_cnt _
  · exact Block.compareChecksum_eob _

/-- Settles O52: both comparisons are of the checksum field with the CRC-32 of type and payload, which a changed byte
changes (R109). -/
theorem checksumIntegrity : Obligations.ChecksumIntegrity := by
  intro s type crc payload hb hl
  obtain ⟨f, g, hexec, hexec', hverify, hverifys⟩ := exec_frame_and_slice hb type crc hl
  refine ⟨f, g, hexec, hexec', ?_⟩
  rw [hverify, hverifys]
  obtain ⟨hdone, herror⟩ :=
    (verifyCompared s.block type payload crc).compareChecksum_fed (fed := bytesOf type ++ payload) rfl
  refine ⟨hdone, hdone, ?_⟩
  rintro type' payload' before after d e rfl - hsent hgot hne
  have hbad : crc32 (bytesOf type' ++ payload') ≠ crc32 (bytesOf type ++ payload) := by
    rw [hsent, hgot]
    exact crcDetectsOneByteChange before after d e hne
  obtain ⟨hstate, herr⟩ := herror hbad
  exact ⟨hstate, herr, hstate, herr⟩

end

section
/-! SUPPORT. The proof of the statement about a buffer of frames (43_verify.md R133): one VERIFY of the host's loop takes
one frame off the buffer, and its last frame is the one that ends with `EOB` = 1. -/

namespace Sys2Proof.Machine

/-! ## A buffer of marked bytes -/

theorem markLast_append (xs : List Byte) {ys : List Byte} (h : ys ≠ []) :
    markLast (xs ++ ys) = unmarked xs ++ markLast ys := by
  have hne : xs ++ ys ≠ [] := List.append_ne_nil_of_right_ne_nil xs h
  rw [markLast_ne_nil hne, markLast_ne_nil h, List.dropLast_append_of_ne_nil h, List.getLast_append_of_ne_nil _ h,
    unmarked_append, List.append_assoc]

theorem unmarked_dropLast {xs : List Byte} (h : xs ≠ []) :
    unmarked xs = unmarked xs.dropLast ++ [⟨xs.getLast h, false⟩] := by
  conv_lhs => rw [← List.dropLast_append_getLast h]
  rw [unmarked_append]
  rfl

/-! ## Good frames -/

/-- The frame of a type and a payload, with their checksum (R62). -/
def goodFrame (r : Word × List Byte) : List Byte :=
  frameOf (BitVec.ofNat 32 r.2.length) r.1 r.2 (crc32 (bytesOf r.1 ++ r.2))

/-- What a host copies out after VERIFY on that frame (R75). -/
def goodRecord (r : Word × List Byte) : Record := ⟨BitVec.ofNat 32 r.2.length, r.1, crc32 (bytesOf r.1 ++ r.2)⟩

theorem goodFrame_ne_nil (r : Word × List Byte) : goodFrame r ≠ [] :=
  List.ne_nil_of_length_pos (by rw [goodFrame, frameOf_length]; omega)

/-- The bytes of a list of good frames, one after another. -/
def goodBuffer (recs : List (Word × List Byte)) : List Byte := recs.flatMap goodFrame

theorem goodBuffer_ne_nil {recs : List (Word × List Byte)} (h : recs ≠ []) : goodBuffer recs ≠ [] := by
  cases recs with
  | nil => exact absurd rfl h
  | cons r recs => exact List.append_ne_nil_of_left_ne_nil (goodFrame_ne_nil r) _

/-- A buffer begins with its first frame, whose last byte is marked when no frame follows. -/
theorem markLast_goodBuffer (r : Word × List Byte) (recs : List (Word × List Byte)) :
    markLast (goodBuffer (r :: recs)) =
      unmarked (goodFrame r).dropLast ++
        ⟨(goodFrame r).getLast (goodFrame_ne_nil r), recs.isEmpty⟩ :: markLast (goodBuffer recs) := by
  have hbuffer : goodBuffer (r :: recs) = goodFrame r ++ goodBuffer recs := rfl
  cases recs with
  | nil =>
    rw [hbuffer, show goodBuffer [] = [] from rfl, List.append_nil, markLast_ne_nil (goodFrame_ne_nil r)]
    rfl
  | cons r' recs =>
    rw [hbuffer, markLast_append _ (goodBuffer_ne_nil (List.cons_ne_nil r' recs)), unmarked_dropLast (goodFrame_ne_nil r),
      List.append_assoc]
    rfl

/-! ## One VERIFY of the loop -/

/-- The registers after VERIFY on a good frame whose last byte carries the mark `l`. -/
def verifiedBlock (b : Block) (r : Word × List Byte) (l : Bool) : Block :=
  { verifyCompared b r.1 r.2 (crc32 (bytesOf r.1 ++ r.2)) with state := .done, eob := l }

theorem compareChecksum_goodFrame (b : Block) (r : Word × List Byte) (l : Bool) :
    { verifyCompared b r.1 r.2 (crc32 (bytesOf r.1 ++ r.2)) with eob := l }.compareChecksum = verifiedBlock b r l :=
  if_pos (crc32_eq _)

theorem verifiedBlock_record (b : Block) (r : Word × List Byte) (l : Bool) :
    (verifiedBlock b r l).record = goodRecord r := by
  rw [Block.record_eq, goodRecord, crc32_eq]
  rfl

/-- The statement `CMD VERIFY` of a host's script: the start, and then every waiting byte is offered (R74). -/
theorem run_cmd_verify (s : State) :
    (Stmt.cmd Opcode.verify).run s = .next ((s.onBlock (Block.startStream .verify)).feed s.source.length) := by
  have hrun : (Stmt.cmd Opcode.verify).run s =
      runEvents (.regWrite 0 1 :: List.replicate (s.source ++ []).length .offer) { s with source := s.source ++ [] } := rfl
  rw [hrun, List.append_nil, runEvents_cons, runEvents_offers]
  rfl

theorem verifyAfter_goodFrame (b : Block) {r : Word × List Byte} (hl : r.2.length ≤ 0xFFFFFFFF) :
    verifyAfter b (goodFrame r) = { verifyCompared b r.1 r.2 (crc32 (bytesOf r.1 ++ r.2)) with eob := false } :=
  verifyAfter_frame b _ _ hl

/-- VERIFY at the head of a buffer takes the first frame and leaves the rest. -/
theorem verify_goodBuffer {s : State} (hb : s.block.busy = false) {r : Word × List Byte}
    {recs : List (Word × List Byte)} (hl : r.2.length ≤ 0xFFFFFFFF) (hs : s.source = markLast (goodBuffer (r :: recs))) :
    (s.onBlock (Block.startStream .verify)).feed s.source.length =
      { s with block := verifiedBlock s.block r recs.isEmpty, source := markLast (goodBuffer recs) } := by
  rw [markLast_goodBuffer] at hs
  rw [verify_feed_frame hb rfl hs (frameOf_dropLast_length _ _ hl rfl), List.dropLast_append_getLast,
    verifyAfter_goodFrame _ hl, ← compareChecksum_goodFrame]
  rfl

/-- The loop after a VERIFY that ended in DONE: it stops at `EOB` = 1. -/
theorem verifyAll_of_done {n : Nat} (acc : List Record) {s t : State}
    (hrun : (Stmt.cmd Opcode.verify).run s = .next t) (hdone : t.block.state = .done) :
    verifyAll (n + 1) acc s =
      if t.block.eob then .records (t.block.record :: acc).reverse else verifyAll n (t.block.record :: acc) t := by
  obtain ⟨hbusy, -, herror, heob, -⟩ := t.block.statusWord_flags
  rw [Block.busy, hdone] at hbusy
  rw [Block.isError, hdone] at herror
  have hstatus : t.block.read Reg.status = t.block.statusWord := rfl
  simp only [verifyAll, hrun, hstatus, hbusy, herror, heob]
  rfl

/-- The loop over a buffer of good frames adds their records to those it has. -/
theorem verifyAll_goodBuffer (recs : List (Word × List Byte)) (hne : recs ≠ [])
    (hl : ∀ r ∈ recs, r.2.length ≤ 0xFFFFFFFF) (acc : List Record) (s : State) (hb : s.block.busy = false)
    (hs : s.source = markLast (goodBuffer recs)) :
    verifyAll recs.length acc s = .records (acc.reverse ++ recs.map goodRecord) := by
  induction recs generalizing acc s with
  | nil => exact absurd rfl hne
  | cons r recs ih =>
    have hrun := run_cmd_verify s
    rw [verify_goodBuffer hb (hl r List.mem_cons_self) hs] at hrun
    rw [List.length_cons, verifyAll_of_done acc hrun rfl, verifiedBlock_record]
    cases recs with
    | nil => exact congrArg VerifyAll.records List.reverse_cons
    | cons r' recs =>
      refine (ih (List.cons_ne_nil r' recs) (fun x hx => hl x (List.mem_cons_of_mem r hx)) _ _ rfl rfl).trans ?_
      rw [List.reverse_cons, List.append_assoc]
      rfl

end Sys2Proof.Machine

open Sys2Proof Sys2Proof.Machine

/-- Settles O54. -/
theorem bufferOfFramesParsedInOrder : Obligations.BufferOfFramesParsedInOrder := by
  intro s recs hb hne hl hs
  exact verifyAll_goodBuffer recs hne hl [] s hb hs

end

section
/-! SUPPORT. Proofs of the statements about the commands (44_control.md): the five stream commands as one, the block
after CLEAR and after a start, and the frame of every instruction. -/

namespace Sys2Proof.Machine

/-! ## The stream commands (R150, R151) -/

/-- The instruction that a stream command is. -/
def StreamCmd.instr (ign : BitVec 28) : StreamCmd → Instr
  | .verify => .verify ign
  | .verifys => .verifys ign
  | .gen => .gen ign
  | .label => .label ign
  | .drain => .drain ign

theorem exec_streamCmd (c : StreamCmd) (ign : BitVec 28) (s : State) :
    exec (c.instr ign) s = .next (s.onBlock (Block.startStream c)) := by
  cases c <;> rfl

theorem streamInstr_cases {i : Instr} {ign : BitVec 28}
    (h : i = .verify ign ∨ i = .verifys ign ∨ i = .gen ign ∨ i = .label ign ∨ i = .drain ign) :
    ∃ c : StreamCmd, i = c.instr ign := by
  rcases h with rfl | rfl | rfl | rfl | rfl
  · exact ⟨.verify, rfl⟩
  · exact ⟨.verifys, rfl⟩
  · exact ⟨.gen, rfl⟩
  · exact ⟨.label, rfl⟩
  · exact ⟨.drain, rfl⟩

/-- What a stream command leaves of the block, accepted or refused. -/
theorem Block.startStream_frame (c : StreamCmd) (b : Block) :
    (b.startStream c).ieDone = b.ieDone ∧ (b.startStream c).ieErr = b.ieErr ∧
      (b.busy = false → (b.startStream c).cmderr = b.cmderr) ∧
      (b.busy = true → b.startStream c = { b with cmderr := (b.startStream c).cmderr }) := by
  cases hb : b.busy with
  | false =>
    rw [Block.startStream_of_not_busy c hb]
    exact ⟨rfl, rfl, fun _ => rfl, nofun⟩
  | true =>
    rw [Block.startStream_of_busy c hb]
    exact ⟨rfl, rfl, nofun, fun _ => rfl⟩

/-- A `TYPE` write stores, or is refused. -/
theorem Block.writeType_frame (v : Word) (b : Block) :
    (b.busy = false → b.writeType v = { b with type := (b.writeType v).type }) ∧
      (b.busy = true → b.writeType v = { b with cmderr := (b.writeType v).cmderr }) := by
  refine ⟨fun hb => ?_, fun hb => ?_⟩
  · rw [Block.writeType_of_not_busy v hb]
  · rw [Block.writeType_of_busy v hb]
    rfl

/-- Every instruction answers a next state in which only the block can have changed. -/
theorem exec_eq_onBlock (i : Instr) (s : State) : ∃ g : Block → Block, exec i s = .next (s.onBlock g) := by
  cases i with
  | nop ign => exact ⟨id, rfl⟩
  | _ => exact ⟨_, rfl⟩

/-- The block right after an accepted stream command (R150). -/
def startedBlock (c : StreamCmd) (b : Block) : Block := { b.forget with op := c.opcode, state := c.entry }

theorem startStream_eq_started (c : StreamCmd) {b : Block} (hb : b.busy = false) :
    b.startStream c = startedBlock c b := Block.startStream_of_not_busy c hb

/-- The word `STATUS` reads as after each start, `CMDERR` apart (R17, R23). -/
def startedStatus : StreamCmd → Word
  | .verify => 0x00001101
  | .verifys => 0x00002501
  | .gen => 0x00003601
  | .label => 0x00004701
  | .drain => 0x00005801

theorem startedBlock_status (c : StreamCmd) (b : Block) :
    (startedBlock c b).read 2 = startedStatus c ||| if b.cmderr then 16 else 0 := by
  have hread : (startedBlock c b).read 2 = (startedBlock c b).statusWord := rfl
  rw [hread, Block.statusWord]
  simp only [startedBlock, Block.busy, Block.isDone, Block.isError, Block.forget_eob, Block.forget_cmderr]
  cases b.cmderr <;> cases c <;> decide

theorem startedBlock_outputs (c : StreamCmd) (b : Block) :
    (startedBlock c b).inReady = true ∧ (startedBlock c b).irq = false := by
  have hbusy : c.entry.busy = true ∧ (c.entry == .done) = false ∧ (c.entry == .error) = false := by
    cases c <;> decide
  obtain ⟨hbusy, hdone, herror⟩ := hbusy
  refine ⟨hbusy, ?_⟩
  simp [Block.irq, Block.isDone, Block.isError, startedBlock, hdone, herror]

/-- `CRC_CALC` of an accumulator that nothing was fed to. -/
theorem Block.read_crcCalc_of_init {b : Block} (h : b.crc = crcInit) : b.read 7 = 0 := by
  rw [Block.read_crcCalc, h]
  decide

/-- `PROPS` of type 0. -/
theorem Block.read_props_of_zero {b : Block} (h : b.type = 0) : b.read 6 = 7 := by
  rw [Block.read_props, h]
  decide

/-! ## The register `CTRL` (R22, R158) -/

theorem Block.read_ctrl (b : Block) : b.read 1 = (if b.ieDone then 1 else 0) ||| (if b.ieErr then 2 else 0) := by
  have hread : b.read 1 = flagWord b.ieDone ||| flagWord b.ieErr <<< 1 := rfl
  rw [hread]
  cases b.ieDone <;> cases b.ieErr <;> decide

/-- No other register shows the enables. -/
theorem Block.read_writeCtrl {i : RegIndex} (ieDone ieErr : Bool) (b : Block) (hi : i ≠ 1) :
    (b.writeCtrl ieDone ieErr).read i = b.read i := by
  simp only [Block.read, Reg.ctrl, hi, if_false]
  rfl

/-- CLEAR leaves the block of reset, its enables kept (R154). -/
theorem Block.clear_eq (b : Block) : b.clear = Block.afterReset.writeCtrl b.ieDone b.ieErr := rfl

end Sys2Proof.Machine

open Sys2Proof Sys2Proof.Machine

/-! ## The obligations about the commands -/

/-- Settles O36: only the block changes, and in it what the instruction's operation of the block writes. -/
theorem instructionFrames : Obligations.InstructionFrames := by
  intro i s t h
  obtain ⟨g, hg⟩ := exec_eq_onBlock i s
  obtain rfl := Host.Outcome.next.inj (hg.symm.trans h)
  refine ⟨rfl, rfl, rfl, ?nop, ?stream, ?clear, ?wrCtrl, ?wrType⟩
  case nop =>
    rintro ⟨ign, rfl⟩
    rw [← Host.Outcome.next.inj h]
  case stream =>
    rintro ⟨ign, hi⟩
    obtain ⟨c, rfl⟩ := streamInstr_cases hi
    rw [exec_streamCmd] at h
    rw [← Host.Outcome.next.inj h]
    exact s.block.startStream_frame c
  case clear =>
    rintro ⟨ign, rfl⟩
    rw [← Host.Outcome.next.inj h]
    exact ⟨rfl, rfl⟩
  case wrCtrl =>
    rintro ⟨d, e, ign, rfl⟩
    rw [← Host.Outcome.next.inj h]
    rfl
  case wrType =>
    rintro ⟨b0, b1, b2, b3, rfl⟩
    rw [← Host.Outcome.next.inj h]
    exact s.block.writeType_frame _

/-- Settles O8. -/
theorem ctrlWrittenInEveryState : Obligations.CtrlWrittenInEveryState := by
  refine ⟨fun s v more hi => ?_, Block.read_ctrl, fun s ieDone ieErr ign => ⟨_, rfl, rfl, rfl⟩,
    fun s ign => ⟨_, rfl, rfl, rfl⟩, fun s => ⟨_, rfl, rfl, rfl⟩⟩
  rw [step_of_cons hi, eventEffect]
  rfl

/-- Settles O9, for the five commands as one. -/
theorem streamCommandStartsWhenNotBusy : Obligations.StreamCommandStartsWhenNotBusy := by
  intro s ign i op q status hi hb
  obtain ⟨c, rfl, rfl, rfl, rfl⟩ :
      ∃ c : StreamCmd, i = c.instr ign ∧ op = c.opcode ∧ q = c.entry ∧ status = startedStatus c := by
    simp only [List.mem_cons, Prod.mk.injEq, List.not_mem_nil, or_false] at hi
    rcases hi with h | h | h | h | h
    · exact ⟨.verify, h⟩
    · exact ⟨.verifys, h⟩
    · exact ⟨.gen, h⟩
    · exact ⟨.label, h⟩
    · exact ⟨.drain, h⟩
  obtain ⟨hready, hirq⟩ := startedBlock_outputs c s.block
  refine ⟨startedBlock c s.block, rfl, ?_, hready, hirq, startedBlock_status c s.block, rfl, rfl, rfl,
    Block.read_props_of_zero rfl, Block.read_crcCalc_of_init rfl, rfl, rfl⟩
  rw [exec_streamCmd, State.onBlock, startStream_eq_started c hb]

/-- Settles O10. -/
theorem streamCommandRefusedWhileBusy : Obligations.StreamCommandRefusedWhileBusy := by
  intro s ign i hi hb
  obtain ⟨c, rfl⟩ := streamInstr_cases (by simpa using hi)
  rw [exec_streamCmd, State.onBlock, Block.startStream_of_busy c hb]
  rfl

/-- Settles O11. -/
theorem nopChangesNothing : Obligations.NopChangesNothing := fun s ign => exec_nop ign s

/-- Settles O12: the block is that of reset, `CTRL` written. -/
theorem clearRestoresAllButCtrl : Obligations.ClearRestoresAllButCtrl := by
  intro s ign
  have hirq : s.block.clear.irq = false := by simp [Block.irq, Block.isDone, Block.isError]
  refine ⟨s.block.clear, rfl, rfl, fun i hi => ?_, rfl, rfl, hirq⟩
  rw [Block.clear_eq, Block.read_writeCtrl _ _ _ hi]
  rfl

end

section
/-! SUPPORT. Proofs of the statements about beats and `STATE` (44_control.md R155 to R161): the transition table, a beat
state by state, a marked byte in any BUSY state, and DRAIN over the source. -/

namespace Sys2Proof.Machine

/-! ## The state after a register write (R160) -/

theorem tableCommand_of_not_busy (entry : Seq) {q : Seq} (h : q.busy = false) : tableCommand entry q = entry := by
  cases q
  case idle | done | error => rfl
  all_goals exact Bool.noConfusion h

theorem tableCommand_of_busy (entry : Seq) {q : Seq} (h : q.busy = true) : tableCommand entry q = q := by
  cases q
  case idle | done | error => exact Bool.noConfusion h
  all_goals rfl

theorem Block.startStream_state (c : StreamCmd) (b : Block) :
    (b.startStream c).state = tableCommand c.entry b.state := by
  cases hb : b.busy with
  | false => rw [Block.startStream_of_not_busy c hb, tableCommand_of_not_busy c.entry hb]
  | true => rw [Block.startStream_of_busy c hb, tableCommand_of_busy c.entry hb, Block.refuse_state]

/-- The columns VERIFY to CLEAR, NOP and the reserved opcodes. -/
theorem commandEffect_state (op : Code) (b : Block) :
    (commandEffect op b).state =
      if op = 1 then tableCommand .lenf b.state
      else if op = 2 then tableCommand .slice b.state
      else if op = 3 then tableCommand .genr b.state
      else if op = 4 then tableCommand .labelr b.state
      else if op = 5 then tableCommand .drainr b.state
      else if op = 6 then .idle
      else b.state := by
  by_cases h0 : op = 0
  · subst h0
    rfl
  · simp only [commandEffect, h0, if_false, apply_ite Block.state, Block.startStream_state, StreamCmd.entry,
      Block.clear_state, Block.refuse_state]

/-- Only a command changes `STATE`. -/
theorem writeEffect_state (i : RegIndex) (v : Word) (b : Block) :
    (writeEffect i v b).state = if i = 0 then (commandEffect (opcodeOf v) b).state else b.state := by
  have htype : (b.writeType v).state = b.state := by simp [Block.writeType, apply_ite Block.state]
  simp [writeEffect, apply_ite Block.state, htype]

/-! ## The state after a beat (R160) -/

theorem Block.compareChecksum_state (b : Block) :
    b.compareChecksum.state = if b.crcRx = ~~~ b.crc then .done else .error := by
  rw [Block.compareChecksum]
  split <;> rfl

section
variable {b : Block} (d : Byte) (l : Bool)

theorem Block.beat_of_genr (h : b.state = .genr) : b.beat d l = b.beatGenr d l := by rw [Block.beat, h]
theorem Block.beat_of_labelr (h : b.state = .labelr) : b.beat d l = b.beatLabelr d l := by rw [Block.beat, h]

/-- The byte is dropped: only `EOB` and, at `in_last`, `STATE` change (R156). -/
theorem Block.beat_of_drainr (h : b.state = .drainr) :
    b.beat d l = { b with eob := l, state := if l then .done else .drainr } := by
  rw [Block.beat, h]
  cases l with
  | false => exact (congrArg (fun q => { b with eob := false, state := q }) h :)
  | true => rfl

theorem Block.beat_state_lenf (hs : b.state = .lenf) : (b.beat d l).state = tableBeat d l b := by
  have h4 : b.cnt + 1 = 4 ↔ b.cnt = 3 := by bv_omega
  simp only [Block.beat_of_lenf d l hs, Block.beatLenf, tableBeat, hs, h4, apply_ite Block.state, Block.raise_state]

theorem Block.beat_state_typef (hs : b.state = .typef) : (b.beat d l).state = tableBeat d l b := by
  have h4 : b.cnt + 1 = 4 ↔ b.cnt = 3 := by bv_omega
  simp only [Block.beat_of_typef d l hs, Block.beatTypef, tableBeat, hs, h4, apply_ite Block.state, Block.raise_state]

theorem Block.beat_state_payld (hs : b.state = .payld) : (b.beat d l).state = tableBeat d l b := by
  simp only [Block.beat_of_payld d l hs, Block.beatPayld, tableBeat, hs, apply_ite Block.state, Block.raise_state]

theorem Block.beat_state_crcf (hs : b.state = .crcf) (hcnt : b.cnt.toNat < 4) :
    (b.beat d l).state = tableBeat d l b := by
  have h4 : (b.cnt + 1).toNat < 4 ↔ ¬b.cnt = 3 := by bv_omega
  simp only [Block.beat_of_crcf d l hs, Block.beatCrcf, tableBeat, hs, h4, ite_not, apply_ite Block.state,
    Block.raise_state, Block.compareChecksum_state]

theorem Block.beat_state_slice (hs : b.state = .slice) (hcnt : b.cnt.toNat ≤ 8) :
    (b.beat d l).state = tableBeat d l b := by
  have h8 : 8 ≤ b.cnt.toNat ↔ b.cnt = 8 := by bv_omega
  rw [Block.beat_of_slice d l hs]
  by_cases hover : b.cnt = 8 ∧ b.len = 0xFFFFFFFF
  · rw [Block.beatSlice_overflow d l (by rwa [h8])]
    simp only [tableBeat, hs, hover, and_self, if_true, Block.raise_state]
  · rw [Block.beatSlice_eq d l (by rwa [h8])]
    have hst : b.releaseOldest.state = .slice := (congrArg Block.state b.releaseOldest_frame).trans hs
    have h7 : (satInc b.cnt 8).toNat < 8 ↔ b.cnt.toNat < 7 := by
      rw [toNat_satInc _ (by decide)]
      omega
    simp only [tableBeat, hs, hover, if_false, apply_ite Block.state, Block.raise_state, Block.compareChecksum_state,
      h7, hst, Block.releaseOldest_crc]
    by_cases hfew : b.cnt.toNat < 7
    · simp only [hfew, if_true]
    · have hfull : 4 ≤ b.cnt.toNat := by omega
      simp only [hfew, hfull, if_true, if_false]

theorem Block.beat_state_genr (hs : b.state = .genr) (hcnt : b.cnt.toNat ≤ 4) :
    (b.beat d l).state = tableBeat d l b := by
  have h4 : 4 ≤ b.cnt.toNat ↔ b.cnt = 4 := by bv_omega
  rw [Block.beat_of_genr _ _ hs]
  by_cases hover : b.cnt = 4 ∧ b.len = 0xFFFFFFFF
  · rw [Block.beatGenr_overflow d l (by rwa [h4])]
    simp only [tableBeat, hs, hover, and_self, if_true, Block.raise_state]
  · rw [Block.beatGenr_eq d l (by rwa [h4])]
    have h3 : (b.cnt + 1).toNat < 4 ↔ b.cnt.toNat < 3 := by bv_omega
    by_cases hfew : b.cnt.toNat < 4
    · simp only [tableBeat, hs, hover, hfew, h3, if_true, if_false, apply_ite Block.state, Block.raise_state]
    · have hmany : ¬b.cnt.toNat < 3 := by omega
      simp only [tableBeat, hs, hover, hfew, hmany, if_false, apply_ite Block.state]

theorem Block.beat_state_labelr (hs : b.state = .labelr) : (b.beat d l).state = tableBeat d l b := by
  have h4 : satInc b.cnt 5 = 4 ↔ b.cnt = 3 := by
    rw [satInc_five]
    split <;> bv_omega
  rw [Block.beat_of_labelr _ _ hs, Block.beatLabelr_eq]
  simp only [tableBeat, hs, h4, ne_eq, apply_ite Block.state, Block.raise_state]
  by_cases h3 : b.cnt = 3
  · have hfew : b.cnt.toNat < 4 := by bv_omega
    rw [if_pos hfew]
    simp only [h3, not_true_eq_false, if_false]
    cases isAlpha (shiftIn b.type d) <;> rfl
  · simp only [h3, not_false_eq_true, if_true]

theorem Block.beat_state_drainr (hs : b.state = .drainr) : (b.beat d l).state = tableBeat d l b := by
  rw [Block.beat_of_drainr d l hs]
  simp only [tableBeat, hs]

/-- The column `Beat(d, l)`. -/
theorem Block.beat_state (h : b.Inv) : (b.beat d l).state = tableBeat d l b := by
  have hcnt : b.CntFits := h.cntFits
  unfold Block.CntFits at hcnt
  cases hs : b.state <;> rw [hs] at hcnt
  case idle | done | error => simp only [Block.beat, tableBeat, hs]
  case lenf => exact Block.beat_state_lenf d l hs
  case typef => exact Block.beat_state_typef d l hs
  case payld => exact Block.beat_state_payld d l hs
  case crcf => exact Block.beat_state_crcf d l hs hcnt
  case slice => exact Block.beat_state_slice d l hs hcnt
  case genr => exact Block.beat_state_genr d l hs hcnt
  case labelr => exact Block.beat_state_labelr d l hs
  case drainr => exact Block.beat_state_drainr d l hs

end

theorem State.takeOffer_of_cons {s : State} {x : Beat} {rest : List Beat} (hs : s.source = x :: rest) :
    s.takeOffer.block = s.block.beat x.data x.last := by
  cases hb : s.block.busy with
  | true => rw [State.takeOffer_of_busy hb hs]
  | false => rw [State.takeOffer_of_not_busy hb, Block.beat_of_not_busy hb]

theorem eventEffect_state (e : Event) {s : State} (h : s.block.Inv) :
    (eventEffect e s).block.state = tableNext e s := by
  cases e with
  | reset => rfl
  | regRead i => rfl
  | regWrite i v =>
    simp only [eventEffect, State.onBlock_block, tableNext, writeEffect_state, commandEffect_state]
  | offer =>
    rw [eventEffect, tableNext]
    cases hsrc : s.source with
    | nil => rw [State.takeOffer_of_nil hsrc]
    | cons x rest => rw [State.takeOffer_of_cons hsrc, Block.beat_state _ _ h]

/-! ## A marked byte (R161) -/

/-- The block is in DONE or ERROR. -/
def Block.Ended (b : Block) : Prop := b.state = .done ∨ b.state = .error

theorem Block.raise_ended (e : ErrName) (b : Block) : (b.raise e).Ended := .inr rfl

theorem Block.compareChecksum_ended (b : Block) : b.compareChecksum.Ended := by
  rcases b.compareChecksum_cases with ⟨-, hcmp⟩ | ⟨-, hcmp⟩ <;> rw [hcmp]
  · exact .inl rfl
  · exact .inr rfl

theorem Block.ite_ended {p : Prop} [Decidable p] {a b : Block} (ha : a.Ended) (hb : b.Ended) :
    (if p then a else b).Ended := by
  split
  · exact ha
  · exact hb

theorem Block.beat_marked_ended {b : Block} (hb : b.busy = true) (d : Byte) : (b.beat d true).Ended := by
  cases hs : b.state with
  | idle | done | error =>
    rw [Block.busy, hs] at hb
    exact Bool.noConfusion hb
  | lenf =>
    rw [Block.beat_of_lenf d true hs]
    exact Block.raise_ended .truncated _
  | typef =>
    rw [Block.beat_of_typef d true hs]
    exact Block.raise_ended .truncated _
  | payld =>
    rw [Block.beat_of_payld d true hs]
    exact Block.raise_ended .truncated _
  | crcf =>
    rw [Block.beat_of_crcf d true hs]
    exact Block.ite_ended (Block.raise_ended .truncated _) (Block.compareChecksum_ended _)
  | slice =>
    rw [Block.beat_of_slice d true hs]
    by_cases hover : 8 ≤ b.cnt.toNat ∧ b.len = lenMax
    · rw [Block.beatSlice_overflow d true hover]
      exact Block.raise_ended .lenOverflow _
    · rw [Block.beatSlice_eq d true hover]
      simp only [if_true]
      exact Block.ite_ended (Block.raise_ended .truncated _) (Block.compareChecksum_ended _)
  | genr =>
    rw [Block.beat_of_genr _ _ hs]
    by_cases hover : 4 ≤ b.cnt.toNat ∧ b.len = lenMax
    · rw [Block.beatGenr_overflow d true hover]
      exact Block.raise_ended .lenOverflow _
    · rw [Block.beatGenr_eq d true hover]
      simp only [if_true]
      exact Block.ite_ended (Block.raise_ended .truncated _) (.inl rfl)
  | labelr =>
    rw [Block.beat_of_labelr _ _ hs, Block.beatLabelr_eq]
    simp only [if_true]
    exact Block.ite_ended (Block.raise_ended .invalidLength _)
      (Block.ite_ended (Block.raise_ended .invalidByte _) (.inl rfl))
  | drainr =>
    rw [Block.beat_of_drainr d true hs]
    exact .inl rfl

end Sys2Proof.Machine

open Sys2Proof Sys2Proof.Machine

/-! ## The obligations about beats and `STATE` -/

/-- Settles O31, event by event; a beat state by state, with `CNT` in the range of the invariant. -/
theorem stateFollowsTransitionTable : Obligations.StateFollowsTransitionTable := by
  intro s t e more h hi hstep
  obtain rfl := step_of_cons_eq hi hstep
  rw [eventEffect_withInputs]
  exact eventEffect_state e h

/-- Settles O39. -/
theorem lastByteEndsEveryCommand : Obligations.LastByteEndsEveryCommand := by
  intro s t d rest more hb hi hsrc hstep
  rw [step_offer_of_busy hb hsrc hi] at hstep
  obtain rfl := Host.Outcome.next.inj hstep
  exact ⟨Block.beat_marked_ended hb d, rfl, by rw [Block.beat_eob, if_pos hb]⟩

/-- Settles O23. -/
theorem beatInDrain : Obligations.BeatInDrain := by
  intro s d l rest more hstate hsrc hi
  rw [step_offer_of_busy (Block.busy_of_state hstate rfl) hsrc hi, Block.beat_of_drainr d l hstate]

/-- Settles O51: DRAIN's unmarked bytes leave the block as it started, and its first marked byte ends it. -/
theorem drainWholeBuffer : Obligations.DrainWholeBuffer := by
  rintro s t ign hb hexec r rfl
  have ht : t = s.onBlock (Block.startStream .drain) := (Host.Outcome.next.inj hexec).symm
  have hbeats (ys : List Byte) : (s.block.startStream .drain).beats (unmarked ys) = startedBlock .drain s.block := by
    rw [drain_beats hb, startStream_eq_started _ hb]
  cases hfirst : firstLast s.source with
  | some e =>
    obtain ⟨ys, d, -, hsrc⟩ := firstLast_some hfirst
    rw [State.feed_command ht hsrc (hbeats ys) rfl rfl, Block.beat_of_drainr d true rfl]
    refine ⟨⟨rfl, rfl, rfl, rfl, rfl, Block.read_crcCalc_of_init rfl, rfl⟩, ?_, nofun⟩
    rintro _ ⟨⟩
    exact ⟨rfl, rfl, rfl⟩
  | none =>
    rw [State.feed_command_unfinished ht hfirst (hbeats _) rfl]
    exact ⟨⟨rfl, rfl, rfl, rfl, rfl, Block.read_crcCalc_of_init rfl, rfl⟩, nofun, fun _ => ⟨rfl, rfl, rfl, rfl⟩⟩

end

section
/-! SUPPORT. Proofs of the statements about errors (60_exceptions.md): the codes that are raised, the one way into ERROR,
what a read of `ERR` returns, and `irq` as a level of `STATE`. -/

namespace Sys2Proof.Machine

/-! ## The codes that are raised (R171, R172) -/

/-- The codes of the five errors the block raises; the other three names belong to host software. -/
def raisedCodes : List Code := [2, 3, 4, 5, 8]

theorem mem_raisedCodes_of_mayRaise {op err : Code} (h : mayRaise op err) : err ∈ raisedCodes := by
  rcases h with ⟨-, rfl | rfl⟩ | ⟨-, rfl | rfl | rfl⟩ | ⟨-, rfl | rfl⟩ | ⟨-, rfl | rfl⟩ <;> decide

/-- If the block is in ERROR, `ERR` holds a code that is raised. -/
def Block.ErrRaised (b : Block) : Prop := b.state = .error → b.err ∈ raisedCodes

theorem Block.raise_errRaised (b : Block) {e : ErrName} (he : e.code ∈ raisedCodes) : (b.raise e).ErrRaised :=
  fun _ => he

theorem Block.errRaised_of_busy {b : Block} (hb : b.busy = true) : b.ErrRaised := fun h =>
  Bool.noConfusion (hb.symm.trans (congrArg Seq.busy h))

theorem Block.errRaised_of_done {b : Block} (hd : b.state = .done) : b.ErrRaised := fun h =>
  Seq.noConfusion (hd.symm.trans h)

theorem Block.ite_errRaised {p : Prop} [Decidable p] {a b : Block} (ha : a.ErrRaised) (hb : b.ErrRaised) :
    (if p then a else b).ErrRaised := by
  split
  · exact ha
  · exact hb

theorem Block.truncated_errRaised (b : Block) : (b.raise .truncated).ErrRaised := b.raise_errRaised (by decide)

theorem Block.lenOverflow_errRaised (b : Block) : (b.raise .lenOverflow).ErrRaised := b.raise_errRaised (by decide)

theorem Block.compareChecksum_errRaised (b : Block) : b.compareChecksum.ErrRaised :=
  Block.ite_errRaised (Block.errRaised_of_done rfl) (b.raise_errRaised (by decide))

/-- From a BUSY state, whether the invariant holds there or not, a beat reaches ERROR only by raising an error. -/
theorem Block.beat_errRaised {b : Block} (hb : b.busy = true) (d : Byte) (l : Bool) : (b.beat d l).ErrRaised := by
  cases hs : b.state with
  | idle | done | error =>
    rw [Block.busy, hs] at hb
    exact Bool.noConfusion hb
  | lenf =>
    rw [Block.beat_of_lenf d l hs]
    exact Block.ite_errRaised (Block.truncated_errRaised _)
      (Block.ite_errRaised (Block.errRaised_of_busy rfl) (Block.errRaised_of_busy hb))
  | typef =>
    rw [Block.beat_of_typef d l hs]
    exact Block.ite_errRaised (Block.truncated_errRaised _)
      (Block.ite_errRaised
        (Block.ite_errRaised (Block.errRaised_of_busy rfl) (Block.errRaised_of_busy rfl)) (Block.errRaised_of_busy hb))
  | payld =>
    rw [Block.beat_of_payld d l hs]
    exact Block.ite_errRaised (Block.truncated_errRaised _)
      (Block.ite_errRaised (Block.errRaised_of_busy rfl) (Block.errRaised_of_busy hb))
  | crcf =>
    rw [Block.beat_of_crcf d l hs]
    exact Block.ite_errRaised (Block.ite_errRaised (Block.truncated_errRaised _) (Block.errRaised_of_busy hb))
      (Block.compareChecksum_errRaised _)
  | slice =>
    rw [Block.beat_of_slice d l hs]
    by_cases hover : 8 ≤ b.cnt.toNat ∧ b.len = lenMax
    · rw [Block.beatSlice_overflow d l hover]
      exact Block.lenOverflow_errRaised _
    · rw [Block.beatSlice_eq d l hover]
      exact Block.ite_errRaised
        (Block.ite_errRaised (Block.truncated_errRaised _) (Block.compareChecksum_errRaised _))
        (Block.errRaised_of_busy ((congrArg Block.busy b.releaseOldest_frame).trans hb))
  | genr =>
    rw [Block.beat_of_genr d l hs]
    by_cases hover : 4 ≤ b.cnt.toNat ∧ b.len = lenMax
    · rw [Block.beatGenr_overflow d l hover]
      exact Block.lenOverflow_errRaised _
    · rw [Block.beatGenr_eq d l hover]
      exact Block.ite_errRaised
        (Block.ite_errRaised (Block.truncated_errRaised _) (Block.errRaised_of_done rfl))
        (Block.ite_errRaised (Block.errRaised_of_busy hb) (Block.errRaised_of_busy hb))
  | labelr =>
    rw [Block.beat_of_labelr d l hs, Block.beatLabelr_eq]
    exact Block.ite_errRaised
      (Block.ite_errRaised (Block.raise_errRaised _ (by decide))
        (Block.ite_errRaised (Block.raise_errRaised _ (by decide)) (Block.errRaised_of_done rfl)))
      (Block.errRaised_of_busy hb)
  | drainr =>
    rw [Block.beat_of_drainr d l hs]
    cases l with
    | false => exact Block.errRaised_of_busy rfl
    | true => exact Block.errRaised_of_done rfl

/-! ## The way into ERROR (R170) -/

/-- Only a beat enters ERROR: a clearing event leaves IDLE, a start a BUSY state, and any other event `STATE` as it
is. -/
theorem eventEffect_enters_error {e : Event} {s : State} (hs : s.block.state ≠ .error)
    (ht : (eventEffect e s).block.state = .error) :
    e = .offer ∧ s.block.busy = true ∧ ∃ byte rest, s.source = byte :: rest := by
  have hclear : ¬e.clears := fun hc => by
    obtain ⟨_, _, h⟩ := eventEffect_clears s hc
    rw [h] at ht
    exact Seq.noConfusion ht
  have hstart : e.streamCommand → s.block.busy = true := fun hc => by
    by_contra hb
    obtain ⟨op, h⟩ := eventEffect_start hc (Bool.eq_false_of_not_eq_true hb)
    rw [h] at ht
    exact Bool.noConfusion ((entryOf_busy op).symm.trans (congrArg Seq.busy ht))
  have hbeat : ¬(e = .offer → s.source = [] ∨ s.block.busy = false) := fun ho => by
    obtain ⟨-, _, _, _, _, h, -⟩ := eventEffect_quiet hclear hstart ho
    rw [h] at ht
    exact hs ht
  simp only [Classical.not_imp, not_or, Bool.not_eq_false] at hbeat
  obtain ⟨ho, hsrc, hb⟩ := hbeat
  exact ⟨ho, hb, List.exists_cons_of_ne_nil hsrc⟩

/-! ## `ERR` as it is read (R29, R172) -/

theorem Block.err_of_error {b : Block} (h : b.ErrFits) (hs : b.state = .error) : b.err ∈ raisedCodes := by
  rw [Block.ErrFits, hs] at h
  exact mem_raisedCodes_of_mayRaise h

theorem Block.err_of_not_error {b : Block} (h : b.ErrFits) (hs : b.state ≠ .error) : b.err = 0 := by
  unfold Block.ErrFits at h
  split at h
  · exact absurd ‹_› hs
  · exact h

theorem Block.read_err (b : Block) : b.read 3 = b.err.setWidth 32 := rfl

/-! ## `irq` in each state (R180) -/

section
variable {b : Block}

theorem Block.irq_of_done (h : b.state = .done) : b.irq = b.ieDone := by
  simp [Block.irq, Block.isDone, Block.isError, h]

theorem Block.irq_of_error (h : b.state = .error) : b.irq = b.ieErr := by
  simp [Block.irq, Block.isDone, Block.isError, h]

theorem Block.irq_of_neither (hd : b.state ≠ .done) (he : b.state ≠ .error) : b.irq = false := by
  simp [Block.irq, Block.isDone, Block.isError, hd, he]

end

end Sys2Proof.Machine

open Sys2Proof Sys2Proof.Machine

/-! ## The obligations about errors -/

/-- Settles O25: only a beat enters ERROR, and it does so by raising one of the five errors. -/
theorem errorEntryIsPrecise : Obligations.ErrorEntryIsPrecise := by
  intro s t hstep hs ht
  rcases step_cases hstep with ⟨-, rfl⟩ | ⟨e, more, hi, rfl⟩
  · exact absurd ht hs
  obtain ⟨rfl, hb, byte, rest, hsrc⟩ := eventEffect_enters_error (s := { s with inputs := more }) hs ht
  rw [step_offer_of_busy (s := s) hb hsrc hi] at hstep
  rw [← Host.Outcome.next.inj hstep] at ht ⊢
  refine ⟨byte, rest, more, hi, rfl, hsrc, rfl, hb, ?_, Block.beat_errRaised hb _ _ ht, ?_, Block.beat_op ..,
    Block.beat_cmderr .., Block.beat_ieDone .., Block.beat_ieErr .., rfl, ?_⟩
  · exact congrArg Seq.busy ht
  · exact (Block.beat_eob ..).trans (if_pos hb)
  · exact (Block.irq_of_error ht).trans (Block.beat_ieErr ..)

/-- Settles O26: when not BUSY, an event that neither clears nor starts a command is quiet. -/
theorem notBusyStatesPersist : Obligations.NotBusyStatesPersist := by
  intro s t e more hi hstep hb hclear hstream
  obtain rfl := step_of_cons_eq hi hstep
  obtain ⟨hsrc, _, _, _, _, hblock, -⟩ := eventEffect_quiet (s := { s with inputs := more }) hclear
    (fun hc => absurd hc hstream) (fun _ => .inr hb)
  rw [hblock]
  exact ⟨hsrc, rfl⟩

/-- Settles O28: every state reached from reset meets the invariant, whose clause about `ERR` gives both halves. -/
theorem errAlwaysALegalCode : Obligations.ErrAlwaysALegalCode := by
  intro k inputs source t hrun
  have hinv : t.block.Inv :=
    runSteps_invariant (P := fun s => s.block.Inv) stepKeepsInvariant k _ t Block.afterReset_inv hrun
  rw [Block.read_err]
  refine ⟨fun hs => ?_, fun hs => ?_⟩
  · exact List.mem_map_of_mem (f := BitVec.setWidth 32) (Block.err_of_error hinv.errFits hs)
  · rw [Block.err_of_not_error hinv.errFits hs]
    rfl

/-- Settles O30: `irq` is computed from the block alone, and a read returns the block as it is. -/
theorem irqIsALevelOfState : Obligations.IrqIsALevelOfState := by
  refine ⟨rfl, fun s t hstep => ⟨Block.irq_of_done, Block.irq_of_error, Block.irq_of_neither, fun i more hi => ?_⟩⟩
  obtain rfl := step_of_cons_eq hi hstep
  rfl

end

section
/-! SUPPORT. Proofs of the statements about reset and waiting (70_reset_and_hazards.md): the block that reset leaves and
what it reads as, the clock cycle with `rst` = 1, and a block BUSY for which no byte comes. -/

namespace Sys2Proof.Machine

/-! ## Reset (R200, R201) -/

/-- Only `PROPS` reads as other than 0: type 0 has three of its properties. -/
theorem Block.read_afterReset (i : RegIndex) : Block.afterReset.read i = if i = 6 then 0x00000007 else 0x00000000 := by
  revert i
  decide

/-- `Reset` is the one event of a cycle with `rst` = 1. -/
theorem clockCycle_of_rst {p : Pins} (s : State) (h : p.rst = true) :
    clockCycle p s = .next (s.onBlock Block.resetAll) := by
  have hevents : p.events = [.reset] := if_pos h
  rw [clockCycle, hevents, runEvents_eq]
  rfl

/-! ## Waiting (R206) -/

/-- The events that wait with the block: an offer, a register read, a NOP. -/
def Event.Waits (e : Event) : Prop :=
  e = .offer ∨ (∃ i, e = .regRead i) ∨ ∃ v, e = .regWrite 0 v ∧ opcodeOf v = 0

/-- With no byte left, a waiting event changes neither the block nor the source. -/
theorem eventEffect_waits {e : Event} {s : State} (he : e.Waits) (hsrc : s.source = []) :
    (eventEffect e s).block = s.block ∧ (eventEffect e s).source = [] := by
  rcases he with rfl | ⟨i, rfl⟩ | ⟨v, rfl, hnop⟩
  · rw [eventEffect, State.takeOffer_of_nil hsrc]
    exact ⟨rfl, hsrc⟩
  · exact ⟨rfl, hsrc⟩
  · refine ⟨?_, hsrc⟩
    rw [eventEffect, State.onBlock_block, writeEffect_cmd, hnop, commandEffect_nop]

/-- The block is `b`, no byte is left, and nothing but waiting events is to come. -/
structure State.WaitingAs (b : Block) (s : State) : Prop where
  block_eq : s.block = b
  source_nil : s.source = []
  inputs_wait : ∀ e ∈ s.inputs, e.Waits

theorem step_keeps_waiting {b : Block} (s t : State) (h : s.WaitingAs b) (hstep : step s = .next t) : t.WaitingAs b := by
  rcases step_cases hstep with ⟨-, rfl⟩ | ⟨e, more, hi, rfl⟩
  · exact h
  obtain ⟨hblock, hsrc, hwait⟩ := h
  rw [hi, List.forall_mem_cons] at hwait
  obtain ⟨he, hmore⟩ := hwait
  obtain ⟨hblock', hsrc'⟩ := eventEffect_waits (s := { s with inputs := more }) he hsrc
  refine ⟨hblock'.trans hblock, hsrc', ?_⟩
  rwa [eventEffect_inputs]

theorem Block.outputs_of_busy {b : Block} (h : b.busy = true) :
    b.inReady = true ∧ b.isDone = false ∧ b.isError = false ∧ b.irq = false := by
  obtain ⟨-, -, hdone, herror, -⟩ := statusFlagsExclusive b
  have hdone : b.isDone = false := Bool.eq_false_iff.mpr fun hd => hdone ⟨h, hd⟩
  have herror : b.isError = false := Bool.eq_false_iff.mpr fun he => herror ⟨h, he⟩
  exact ⟨h, hdone, herror, by simp [Block.irq, hdone, herror]⟩

end Sys2Proof.Machine

open Sys2Proof Sys2Proof.Machine

/-! ## The obligations about reset and waiting -/

/-- Settles O27: waiting is kept by every step, so the run ends with the block it began with. -/
theorem noTimeOutWhileBusy : Obligations.NoTimeOutWhileBusy := by
  refine ⟨?waits, fun s _ => ⟨⟨_, exec_clear 0 s, Block.clear_state _⟩, _, runEvent_eq .reset s, Block.resetAll_state _⟩⟩
  case waits =>
    intro evs s t hb hsrc hevs hi hrun
    have hwaiting : s.WaitingAs s.block := ⟨rfl, hsrc, hi ▸ hevs⟩
    have hblock : t.block = s.block := (runSteps_invariant step_keeps_waiting _ s t hwaiting hrun).block_eq
    rw [hblock]
    exact ⟨rfl, Block.outputs_of_busy hb⟩

/-- Settles O2: the one event of the cycle is `Reset`, whose effect on the block is CLEAR's with `CTRL` cleared. -/
theorem resetOverridesAndRestoresAll : Obligations.ResetOverridesAndRestoresAll := by
  intro p s hrst
  have hcycle : clockCycle p s = .next (s.onBlock Block.resetAll) := clockCycle_of_rst s hrst
  exact ⟨hcycle, if_pos hrst, s.onBlock Block.clear, exec_clear 0 s, hcycle⟩

/-- Settles O3. -/
theorem readsStraightAfterReset : Obligations.ReadsStraightAfterReset := by
  intro s
  refine ⟨s.onBlock Block.resetAll, rfl, fun i => ?_, rfl, rfl⟩
  rw [State.onBlock_block, Block.resetAll_eq, Block.read_afterReset]

end
